-- ==== Sys2Proof/Word.lean ====
section
/-! DEFINITION. The machine's words: registers, bytes, the register index, the three access widths and the raw
instruction word (`00_scope.md` R5, `20_memory.md` R51, `30_encoding.md` R100 to R102). -/

namespace Sys2Proof

/-- A register's content: 32 bits, wraparound arithmetic (R5, R21). -/
abbrev Word := BitVec 32

/-- A byte of memory (R33). -/
abbrev Byte := BitVec 8

/-- The 4-bit register index of the load/store machine (R107). -/
abbrev RegIndex := BitVec 4

/-- The width of one access: 8, 16 or 32 bits, no other (R51). -/
inductive Width where
  | w8
  | w16
  | w32
deriving DecidableEq, Repr

/-- The byte count `n` of an access (R51). -/
@[reducible] def Width.bytes : Width → Nat
  | .w8 => 1
  | .w16 => 2
  | .w32 => 4

/-- The bit count `8n` of an access (R51). -/
@[reducible] def Width.bits : Width → Nat
  | .w8 => 8
  | .w16 => 16
  | .w32 => 32

/-- A raw instruction word: `IW` bits, in format `TM-B` (R101) or `LS-W` (R102). -/
inductive RawWord where
  | tmB (opcode : BitVec 8)
  | lsW (raw : BitVec 32)
deriving DecidableEq, Repr

end Sys2Proof
end

