-- ==== Sys2Proof/Config.lean ====
section
/-! DEFINITION. What is fixed while a core runs: the two architectures with their descriptors (`00_scope.md` R6 to R8),
the host's description of a device and of a whole configuration (R9), the three reference configurations
(`70_reset_and_hazards.md` R270) and the rounding of division (`40_register_ops.md` R136). Nothing here is a free
value: the spec's open parameters are arguments (`Cfg`). -/

namespace Sys2Proof

/-- The two architectures (R2, R7, R8). -/
inductive Arch where
  | tm
  | ls
deriving DecidableEq, Repr

/-- Register names of both architectures (R23, R24; the names are the spec's own, D27). -/
inductive RegName where
  | dp
  | r (n : RegIndex)
  | sp
  | lr
  | pc
deriving DecidableEq, Repr

/-- `Arch.regs`: the ordered list of register names (R6, R22). -/
def Arch.regNames : Arch → List RegName
  | .tm => [.dp, .pc]
  | .ls => (List.range 16).map (fun i => RegName.r (BitVec.ofNat 4 i)) ++ [.sp, .lr, .pc]

/-- `Arch.pcname` (R6). -/
def Arch.pcName : Arch → RegName
  | .tm => .pc
  | .ls => .pc

/-- The width of one instruction: 8 bits for `TM`, 32 bits for `LS` (R6, R100). -/
def Arch.instrWidth : Arch → Width
  | .tm => .w8
  | .ls => .w32

/-- `IB`, the instruction width in bytes (R6). -/
def Arch.ib (a : Arch) : Nat := a.instrWidth.bytes

/-- `IW`, the instruction width in bits (R6). -/
def Arch.iw (a : Arch) : Nat := a.instrWidth.bits

/-- `Arch.reset`: the reset value of each register; `TM_DP_RESET` is an argument (R6, R39, D6 to D8). -/
def Arch.resetValue (tmDpReset : Word) : Arch → RegName → Word
  | .tm, .dp => tmDpReset
  | .tm, _ => 0
  | .ls, _ => 0

/-- How a quotient is rounded (R136, U2). -/
inductive DivRound where
  | floor
  | towardZero
deriving DecidableEq, Repr

/-- `DIV_ROUND`, floor for both architectures (R136, D15; log entry 11). -/
def Arch.divRound : Arch → DivRound
  | .tm => .floor
  | .ls => .floor

/-- The three device kinds in scope (R35). -/
inductive DeviceKind where
  | ram
  | rom
  | zero
deriving DecidableEq, Repr

/-- What the host asks a device to be built as: the three kinds with the bytes they are built from, and the two kinds
of child the spec names and leaves out (R4, R71 for an opaque device; R57 for an MMU under an MMU). -/
inductive DescKind where
  | ram (init : List Byte)
  | rom (image : List Byte)
  | zero
  | opaqueDevice
  | nestedMmu
deriving DecidableEq, Repr

/-- One entry of `Cfg.devices`: kind, base, size (R9). -/
structure DeviceDesc where
  kind : DescKind
  base : Nat
  size : Nat
deriving DecidableEq, Repr

/-- A configuration: the architecture and the platform's open parameters (R6, R9). `ram_init(d)` is the argument of
the `ram` kind. -/
structure Cfg where
  arch : Arch
  devices : List DeviceDesc
  tmDpReset : Word
deriving DecidableEq, Repr

/-- `TM_DP_RESET` of the reference configuration `TM-REF` (R270). DESIGN CHOICE as a reset value, unsafe (log entry 3). -/
def tmRefDpReset : Word := 0x00000800

/-- Reference configuration `TM-REF` with the program as the code store's image (R270). -/
def cfgTmRef (program : List Byte) : Cfg :=
  { arch := .tm
    devices := [{ kind := .rom program, base := 0, size := 0x800 }, { kind := .zero, base := 0x800, size := 0x800 }]
    tmDpReset := tmRefDpReset }

/-- Reference configuration `TM-RAM`: one RAM with arbitrary initial bytes (R270). -/
def cfgTmRam (init : List Byte) (tmDpReset : Word) : Cfg :=
  { arch := .tm
    devices := [{ kind := .ram init, base := 0, size := 0x100 }]
    tmDpReset := tmDpReset }

/-- Reference configuration `LS-REF` (R270); the tape machine's parameter plays no part in it. -/
def cfgLsRef (program : List Byte) : Cfg :=
  { arch := .ls
    devices := [{ kind := .rom program, base := 0, size := 0x800 }]
    tmDpReset := 0 }

end Sys2Proof
end

