-- ==== Sys2Proof/Syntax.lean ====
section
/-! DEFINITION. The instructions: one constructor per row of `spec/opcode_table.json`. -/

namespace Sys2Proof

/-- The nine instructions: eight of the tape machine (`42_tape_machine.md` R181 to R188), one of the load/store
machine (`43_toy_loadstore.md` R210). A decoded instruction carries only its register index, if it has one (R164). -/
inductive Instr where
  | pinc
  | pdec
  | dinc
  | ddec
  | jzf
  | jnzb
  | out
  | halt
  | inc (n : RegIndex)
deriving DecidableEq, Repr

/-- The architecture whose opcode table holds the instruction (R105, R106). -/
def Instr.arch : Instr → Arch
  | .pinc => .tm
  | .pdec => .tm
  | .dinc => .tm
  | .ddec => .tm
  | .jzf => .tm
  | .jnzb => .tm
  | .out => .tm
  | .halt => .tm
  | .inc _ => .ls

end Sys2Proof
end

