-- ==== Sys2Proof/WellFormed.lean ====
section
/-! DEFINITION. Which instruction is a term of which architecture. The register index is four bits by its type, so the
one check left is that the architecture's opcode table holds the instruction (`30_encoding.md` R104 to R106). -/

namespace Sys2Proof

/-- An instruction of architecture `a`: its opcode is a key of `a`'s table (R104). -/
def Instr.wellFormed (a : Arch) (i : Instr) : Bool := decide (i.arch = a)

end Sys2Proof
end

