-- ==== Sys2Proof/Decode.lean ====
section
/-! DEFINITION. Byte order of a raw word, the opcode field, the two opcode tables, the decoder and the encoder
(`30_encoding.md` R100 to R110, `20_memory.md` R63, R64, `41_core_cycle.md` R162 to R164). -/

namespace Sys2Proof

/-- Byte `i` of a value in little-endian order: bits `[8i+7 : 8i]` (R63). -/
def byteAt {n : Nat} (v : BitVec n) (i : Nat) : Byte := v.extractLsb' (8 * i) 8

/-- The first `count` bytes of a value, lowest address first (R63). -/
def leBytes {n : Nat} (v : BitVec n) (count : Nat) : List Byte := (List.range count).map (byteAt v)

/-- The little-endian unsigned integer of a byte list: byte `i` counts `2^(8i)` (R54, R63). -/
def leNat : List Byte → Nat
  | [] => 0
  | b :: bs => b.toNat + 256 * leNat bs

/-- Why bytes are no instruction. -/
inductive DecodeError where
  /-- the opcode is not a key of the architecture's table (R104, R109) -/
  | illegalOpcode (opcode : Byte)
  /-- not as many bytes as the architecture's instructions have (R100) -/
  | wrongLength (count : Nat)
deriving DecidableEq, Repr

/-- The raw word of an architecture from its bytes in address order (R64, R100). -/
def rawOfBytes (a : Arch) (bs : List Byte) : Except DecodeError RawWord :=
  if bs.length = a.ib then
    .ok (match a with
      | .tm => .tmB (BitVec.ofNat 8 (leNat bs))
      | .ls => .lsW (BitVec.ofNat 32 (leNat bs)))
  else .error (.wrongLength bs.length)

/-- `opfield`: the opcode is `raw[7:0]` in both architectures (R103, R162). -/
def opcodeOf : RawWord → Byte
  | .tmB b => b
  | .lsW w => w.extractLsb' 0 8

/-- The register index `n = raw[11:8]` of format `LS-W` (R107). -/
def indexOf (w : BitVec 32) : RegIndex := w.extractLsb' 8 4

/-- `TM_OP_HALT` (R105, D9; log entry 7). -/
def tmOpHalt : Byte := 0x00

/-- The open bracket byte (R105). -/
def openBracket : Byte := 0x5B

/-- The close bracket byte (R105). -/
def closeBracket : Byte := 0x5D

/-- The tape machine's opcode table (R105; four of the values are the spec's choice, log entry 7). -/
def tmOptable : List (Byte × Instr) :=
  [(0x3E, .pinc), (0x3C, .pdec), (0x2B, .dinc), (0x2D, .ddec),
   (openBracket, .jzf), (closeBracket, .jnzb), (0x2E, .out), (tmOpHalt, .halt)]

/-- The load/store machine's opcode table: the constructor takes the register index (R106). -/
def lsOptable : List (Byte × (RegIndex → Instr)) := [(0x01, .inc)]

/-- `Decode`: one lookup of the opcode; bits `raw[31:12]` are ignored (R104, R108, R163, R164). -/
def decode (raw : RawWord) : Except DecodeError Instr :=
  match raw with
  | .tmB b =>
    match tmOptable.lookup b with
    | some i => .ok i
    | none => .error (.illegalOpcode b)
  | .lsW w =>
    match lsOptable.lookup (opcodeOf (.lsW w)) with
    | some mk => .ok (mk (indexOf w))
    | none => .error (.illegalOpcode (opcodeOf (.lsW w)))

/-- The decoder on bytes in address order: total, rejecting by name. -/
def decodeBytes (a : Arch) (bs : List Byte) : Except DecodeError Instr :=
  match rawOfBytes a bs with
  | .ok raw => decode raw
  | .error e => .error e

/-- The raw word of an instruction; the ignored bits are 0 (R105, R106, R113). -/
def encode : Instr → RawWord
  | .pinc => .tmB 0x3E
  | .pdec => .tmB 0x3C
  | .dinc => .tmB 0x2B
  | .ddec => .tmB 0x2D
  | .jzf => .tmB openBracket
  | .jnzb => .tmB closeBracket
  | .out => .tmB 0x2E
  | .halt => .tmB tmOpHalt
  | .inc n => .lsW (0x00000001#32 ||| (n.setWidth 32 <<< 8))

/-- The bytes of a raw word in address order (R63, R64). -/
def RawWord.toBytes : RawWord → List Byte
  | .tmB b => leBytes b 1
  | .lsW w => leBytes w 4

/-- The bytes of an instruction in address order: `01 0n 00 00` for `INC Rn` (R113). -/
def encodeBytes (i : Instr) : List Byte := (encode i).toBytes

/-- The architecture a row of the opcode table belongs to, from the bits the table gives: a row of at most 8 bits whose
byte is a key of the tape machine's table is `TM-B`; every other row is `LS-W` (log entry 15). -/
def tableArch (nbits w : Nat) : Arch :=
  if nbits ≤ 8 ∧ (tmOptable.lookup (BitVec.ofNat 8 w)).isSome then .tm else .ls

/-- The bytes of a table word as the hardware stores them, the bits above `nbits` zero (R63, R64). -/
def tableBytes (nbits w : Nat) : List Byte :=
  leBytes (BitVec.ofNat 32 (w % 2 ^ nbits)) (tableArch nbits w).ib

/-- The instruction the decoder reads from a word of `spec/opcode_table.json`. -/
def decodeTableWord (nbits w : Nat) : Option Instr :=
  match decodeBytes (tableArch nbits w) (tableBytes nbits w) with
  | .ok i => some i
  | .error _ => none

end Sys2Proof
end

