-- ==== Sys2Proof/Machine/State.lean ====
section
/-! DEFINITION. The machine's state as plain data (`10_state.md` R20 to R41), the record of a fault (`60_exceptions.md`
R226), the reasons a step can stop, and the state after reset (R39). -/

namespace Sys2Proof.Machine

open Sys2Proof

/-- A fault of the machine with what it records (R220, R226). Taking one is a NEXT state (R230): these are values of
the status latch, not stops of the model. -/
inductive FaultInfo where
  /-- decode found no table entry: the instruction's address and its raw word (R221) -/
  | illegalOpcode (pc : Word) (raw : RawWord)
  /-- no device holds the address, an integer possibly outside `[0, 2^32)` (R222) -/
  | unmappedAddress (addr : Int)
  /-- the access runs past the end of the device routed to (R223) -/
  | outOfRange (addr : Int) (width : Width)
  /-- a store to a code store (R224) -/
  | readOnlyViolation (addr : Int) (width : Width)
deriving DecidableEq, Repr

/-- The run-status latch (R30). -/
inductive Status where
  | running
  | halted
  | faulted (f : FaultInfo)
deriving DecidableEq, Repr

/-- The tape machine's two registers (R23). -/
structure TmRegs where
  dp : Word
  pc : Word
deriving DecidableEq, Repr

/-- The load/store machine's nineteen registers: `R0` to `R15`, `SP`, `LR`, `PC` (R24). -/
structure LsRegs where
  r : Vector Word 16
  sp : Word
  lr : Word
  pc : Word
deriving DecidableEq, Repr

/-- The register file `x`: exactly the registers of the core's architecture (R20, R22). -/
inductive RegFile where
  | tm (x : TmRegs)
  | ls (x : LsRegs)
deriving DecidableEq, Repr

/-- The architecture the core was constructed for (R20: a parameter, never changed by a step; log entry 1). -/
def RegFile.arch : RegFile → Arch
  | .tm _ => .tm
  | .ls _ => .ls

/-- A device's backing storage as (offset, byte) pairs. -/
abbrev Memory := List Host.Cell

/-- What an offset that no pair lists holds: `0x00`, as a zero store and the rest of a code store are built (R35, R39). A
RAM lists its `ram_init(d)` explicitly, so nothing is assumed of it (log entry 4). -/
def unlistedByte : Byte := 0x00

/-- The canonical form: offsets strictly rising, no pair equal to what an unlisted offset holds. -/
abbrev Memory.wf (m : Memory) : Prop :=
  m.Pairwise (fun c d => c.1 < d.1) ∧ ∀ c ∈ m, c.2 ≠ unlistedByte

/-- A memory device: its geometry, which no step changes, and its backing storage `B(d)` (R34, R52, R53). -/
structure Device where
  kind : DeviceKind
  base : Nat
  size : Nat
  bytes : Memory
deriving DecidableEq, Repr

/-- The whole state `S = (x, mem, out, status)` (R20): `mem` is the MMU's device list in registration order (R58). -/
structure State where
  regs : RegFile
  mem : List Device
  out : List Byte
  status : Status
deriving DecidableEq, Repr

/-- Why a step answers no state. -/
inductive Fault where
  /-- `step` raises it on a halted core: no step exists from `Halted` (R166, U10). Safe. -/
  | coreHalted
  /-- `step` raises it on a faulted core, with the fault it died of: no step exists from `Faulted(f)` (R166, U10). Safe. -/
  | coreFaulted (f : FaultInfo)
deriving DecidableEq, Repr

/-- What the model gives no meaning to. -/
inductive Refusal where
  /-- `exec` raises it for an instruction that has no meaning yet; no arm does. Safe. -/
  | notModelled (mnemonic : String)
  /-- a meaning raises it on a core of the other architecture, whose table does not hold the instruction; no decoded
  instruction reaches it (R104; log entry 10). Safe. -/
  | foreignInstruction (core : Arch)
  /-- the register operation `div` raises it on a zero divisor (R144, U5). Safe. -/
  | divisionByZero
  /-- the register operations `shl` and `shr` raise it on a negative count (R144, U6). Safe. -/
  | negativeShift
  /-- access to a register by a name that is not in the architecture's list raises it (R22). Safe. -/
  | noSuchRegister (name : RegName)
  /-- the MMU's `access` raises it on a request that breaks an invariant (R51, U7). Safe. -/
  | illFormedRequest
  /-- device construction raises it on a display or framebuffer (R71, U8). Safe. -/
  | opaqueDevice
  /-- device construction raises it on an MMU as a child (R57, U22). Safe. -/
  | nestedMmu
  /-- device construction raises it when `base + size > 2^32` (R53, U9). Safe. -/
  | rangePastAddressSpace
  /-- device construction raises it when the image is longer than the code store (R56, U9). Safe. -/
  | imageTooLong
  /-- device construction raises it when `ram_init(d)` has not `size(d)` bytes (R35, R261). Safe. -/
  | ramInitLength
deriving DecidableEq, Repr

/-- The register file after a core reset: every register at the value of R39. -/
def RegFile.reset (tmDpReset : Word) : Arch → RegFile
  | .tm => .tm { dp := Arch.resetValue tmDpReset .tm .dp, pc := Arch.resetValue tmDpReset .tm .pc }
  | .ls => .ls
      { r := Vector.replicate 16 (Arch.resetValue tmDpReset .ls (.r 0))
        sp := Arch.resetValue tmDpReset .ls .sp
        lr := Arch.resetValue tmDpReset .ls .lr
        pc := Arch.resetValue tmDpReset .ls .pc }

/-- The machine right after reset (R39, R260), in the reference configuration `TM-REF` with an empty image (R270). The
architecture, the device list and the value of `DP` are open in the spec: DESIGN CHOICE, unsafe (log entries 1, 2, 3). -/
def State.reset : State :=
  { regs := RegFile.reset tmRefDpReset .tm
    mem := [{ kind := .rom, base := 0, size := 0x800, bytes := [] },
            { kind := .zero, base := 0x800, size := 0x800, bytes := [] }]
    out := []
    status := .running }

end Sys2Proof.Machine
end

