-- ==== Sys2Proof/Machine/RegOps.lean ====
section
/-! DEFINITION. The register and its nine operations (`40_register_ops.md` R130 to R145). Each is computed on integers
and the result is reduced modulo `2^32` (R130). No operation writes a flag: the machine has none (R143). -/

namespace Sys2Proof.Machine

open Sys2Proof

/-- `Register(v)`: the word that holds `v mod 2^32` (R131). -/
def regOfInt (v : Int) : Word := BitVec.ofInt 32 v

/-- Read-as-integer (R132). -/
def regRead (a : Word) : Int := (a.toNat : Int)

/-- `RegOp.add` (R133). -/
def regAdd (a : Word) (b : Int) : Word := regOfInt (regRead a + b)

/-- `RegOp.sub` (R134). -/
def regSub (a : Word) (b : Int) : Word := regOfInt (regRead a - b)

/-- `RegOp.mul` (R135). -/
def regMul (a : Word) (b : Int) : Word := regOfInt (regRead a * b)

/-- The integer quotient under a rounding (R136). -/
def roundedQuotient : DivRound → Int → Int → Int
  | .floor, a, b => a.fdiv b
  | .towardZero, a, b => a.tdiv b

/-- `RegOp.div` with the architecture's rounding; a zero divisor is outside the domain (R136, R144, R242). -/
def regDiv (arch : Arch) (a : Word) (b : Int) : Except Refusal Word :=
  if b = 0 then .error .divisionByZero
  else .ok (regOfInt (roundedQuotient arch.divRound (regRead a) b))

/-- `RegOp.shl`: the count is not reduced modulo 32; a negative count is outside the domain (R137, R144). -/
def regShl (a : Word) (b : Int) : Except Refusal Word :=
  if b < 0 then .error .negativeShift else .ok (a <<< b.toNat)

/-- `RegOp.shr`: a logical shift; a negative count is outside the domain (R138, R144). -/
def regShr (a : Word) (b : Int) : Except Refusal Word :=
  if b < 0 then .error .negativeShift else .ok (a >>> b.toNat)

/-- `RegOp.and` on the 32-bit value `b mod 2^32` (R139). -/
def regAnd (a : Word) (b : Int) : Word := a &&& regOfInt b

/-- `RegOp.or` (R140). -/
def regOr (a : Word) (b : Int) : Word := a ||| regOfInt b

/-- `RegOp.xor` (R141). -/
def regXor (a : Word) (b : Int) : Word := a ^^^ regOfInt b

/-- The nine operations by name (R133 to R141). -/
inductive RegOp where
  | add
  | sub
  | mul
  | div
  | shl
  | shr
  | and
  | or
  | xor
deriving DecidableEq, Repr

/-- The non-mutating form: the new value (R142). -/
def regEval (arch : Arch) (op : RegOp) (a : Word) (b : Int) : Except Refusal Word :=
  match op with
  | .add => .ok (regAdd a b)
  | .sub => .ok (regSub a b)
  | .mul => .ok (regMul a b)
  | .div => regDiv arch a b
  | .shl => regShl a b
  | .shr => regShr a b
  | .and => .ok (regAnd a b)
  | .or => .ok (regOr a b)
  | .xor => .ok (regXor a b)

end Sys2Proof.Machine
end

