-- ==== Sys2Proof/Machine/Operands.lean ====
section
/-! DEFINITION. Access to the register file: the general register `Rn` of the load/store machine, the program counter of
either architecture, and registers by name (`10_state.md` R22 to R28). The operand in memory, the byte at `x[DP]`, is
read and written with `readByte` and `writeByte` of `Sys2Proof/Machine/Ops.lean`. There are no flags (R29). -/

namespace Sys2Proof.Machine

open Sys2Proof

/-- The value of `Rn` (R25). -/
def LsRegs.getR (x : LsRegs) (n : RegIndex) : Word := x.r[n.toNat]'(n.isLt)

/-- The file with `Rn` written (R25). -/
def LsRegs.setR (x : LsRegs) (n : RegIndex) (v : Word) : LsRegs := { x with r := x.r.set n.toNat v n.isLt }

/-- `pc`, that is `x[PC]` (R26). -/
def RegFile.pc : RegFile → Word
  | .tm x => x.pc
  | .ls x => x.pc

/-- The file with `pc` written (R26). -/
def RegFile.setPc (x : RegFile) (v : Word) : RegFile :=
  match x with
  | .tm y => .tm { y with pc := v }
  | .ls y => .ls { y with pc := v }

/-- `pc` of a state (R26). -/
def State.pc (s : State) : Word := s.regs.pc

/-- The architecture of a state's core. -/
def State.arch (s : State) : Arch := s.regs.arch

/-- `x[r]`: a lookup by a name of the architecture's list succeeds, by any other name it is none (R22). -/
def RegFile.get? : RegFile → RegName → Option Word
  | .tm x, .dp => some x.dp
  | .tm x, .pc => some x.pc
  | .tm _, .r _ => none
  | .tm _, .sp => none
  | .tm _, .lr => none
  | .ls x, .r n => some (x.getR n)
  | .ls x, .sp => some x.sp
  | .ls x, .lr => some x.lr
  | .ls x, .pc => some x.pc
  | .ls _, .dp => none

/-- `x[r] <- v` for a word `v`; none by a name that is not in the architecture's list (R21, R22). -/
def RegFile.set? : RegFile → RegName → Word → Option RegFile
  | .tm x, .dp, v => some (.tm { x with dp := v })
  | .tm x, .pc, v => some (.tm { x with pc := v })
  | .tm _, .r _, _ => none
  | .tm _, .sp, _ => none
  | .tm _, .lr, _ => none
  | .ls x, .r n, v => some (.ls (x.setR n v))
  | .ls x, .sp, v => some (.ls { x with sp := v })
  | .ls x, .lr, v => some (.ls { x with lr := v })
  | .ls x, .pc, v => some (.ls { x with pc := v })
  | .ls _, .dp, _ => none

/-- The mutating form of a register operation, `x[r] <- RegOp.f(x[r], b)` (R142). -/
def RegFile.apply (x : RegFile) (op : RegOp) (name : RegName) (b : Int) : Except Refusal RegFile :=
  match x.get? name with
  | none => .error (.noSuchRegister name)
  | some a =>
    match regEval x.arch op a b with
    | .error e => .error e
    | .ok v =>
      match x.set? name v with
      | none => .error (.noSuchRegister name)
      | some y => .ok y

end Sys2Proof.Machine
end

