-- ==== Sys2Proof/Machine/Ops.lean ====
section
/-! DEFINITION. The shared operations: backing storage, devices, the MMU router, memory access, the bracket scans, fetch
and decode, taking a fault and the core reset that is the one way out of it (`20_memory.md` R50 to R81,
`41_core_cycle.md` R160 to R173, `60_exceptions.md` R220 to R233, `70_reset_and_hazards.md` R260). -/

namespace Sys2Proof.Machine

open Sys2Proof

/-! ### Backing storage -/

/-- `B(d)[i]` (R34). -/
def Memory.readCell (m : Memory) (i : Nat) : Byte :=
  match m.lookup i with
  | some b => b
  | none => unlistedByte

/-- The storage without offset `i`: it then holds `unlistedByte` there. -/
def Memory.eraseCell (m : Memory) (i : Nat) : Memory := m.filter (fun c => c.1 != i)

/-- A pair put at its place in the rising order. -/
def Memory.insertCell : Memory → Nat → Byte → Memory
  | [], i, b => [(i, b)]
  | c :: m, i, b => if i < c.1 then (i, b) :: c :: m else c :: Memory.insertCell m i b

/-- `B(d)[i] <- b`, keeping the canonical form (R34). -/
def Memory.writeCell (m : Memory) (i : Nat) (b : Byte) : Memory :=
  if b = unlistedByte then Memory.eraseCell m i else Memory.insertCell (Memory.eraseCell m i) i b

/-- The `n` bytes from offset `off` on (R54). -/
def Memory.readCells (m : Memory) (off n : Nat) : List Byte :=
  (List.range n).map (fun i => Memory.readCell m (off + i))

/-- Bytes written at consecutive offsets from `off` on (R55). -/
def Memory.writeCells : Memory → Nat → List Byte → Memory
  | m, _, [] => m
  | m, off, b :: bs => Memory.writeCells (Memory.writeCell m off b) (off + 1) bs

/-! ### Devices -/

/-- The address lies in the device's half-open range `[base, base + size)` (R53). -/
def Device.contains (d : Device) (addr : Int) : Bool :=
  decide ((d.base : Int) ≤ addr ∧ addr < (d.base : Int) + (d.size : Int))

/-- `address - base`, the offset a device computes itself (R54). -/
def Device.offset (d : Device) (addr : Int) : Nat := (addr - (d.base : Int)).toNat

/-- `DevLoad`: little-endian, unsigned, `OutOfRange` past the end of the storage (R54). -/
def devLoad (d : Device) (addr : Int) (w : Width) : Except FaultInfo (BitVec w.bits) :=
  if d.offset addr + w.bytes > d.size then .error (.outOfRange addr w)
  else .ok (BitVec.ofNat w.bits (leNat (Memory.readCells d.bytes (d.offset addr) w.bytes)))

/-- `DevStore`: the read-only test first, then the bounds, then all the bytes or none (R55, D18, D19). -/
def devStore (d : Device) (addr : Int) (w : Width) (v : BitVec w.bits) : Except FaultInfo Device :=
  if d.kind = .rom then .error (.readOnlyViolation addr w)
  else if d.offset addr + w.bytes > d.size then .error (.outOfRange addr w)
  else .ok { d with bytes := Memory.writeCells d.bytes (d.offset addr) (leBytes v w.bytes) }

/-! ### The MMU -/

/-- `Route`: the first device in registration order whose range holds the address; an address outside `[0, 2^32)` is
unmapped whatever the list holds (R33, R59; log entry 9). -/
def route (mem : List Device) (addr : Int) : Except FaultInfo Device :=
  if 0 ≤ addr ∧ addr.toNat < 0x100000000 then
    match mem.find? (fun d => d.contains addr) with
    | some d => .ok d
    | none => .error (.unmappedAddress addr)
  else .error (.unmappedAddress addr)

/-- The device list with the device that an address is routed to replaced. -/
def replaceRouted (addr : Int) (d' : Device) : List Device → List Device
  | [] => []
  | d :: ds => if d.contains addr then d' :: ds else d :: replaceRouted addr d' ds

/-- `MemRead(addr, n) = DevLoad(Route(addr), addr, n)` (R60). -/
def memRead (mem : List Device) (addr : Int) (w : Width) : Except FaultInfo (BitVec w.bits) :=
  match route mem addr with
  | .error f => .error f
  | .ok d => devLoad d addr w

/-- `MemWrite(addr, n, v) = DevStore(Route(addr), addr, n, v)` (R61). -/
def memWrite (mem : List Device) (addr : Int) (w : Width) (v : BitVec w.bits) : Except FaultInfo (List Device) :=
  match route mem addr with
  | .error f => .error f
  | .ok d =>
    match devStore d addr w v with
    | .error f => .error f
    | .ok d' => .ok (replaceRouted addr d' mem)

/-- An 8-bit load (R67). -/
def readByte (mem : List Device) (addr : Int) : Except FaultInfo Byte := memRead mem addr .w8

/-- An 8-bit store (R67). -/
def writeByte (mem : List Device) (addr : Int) (b : Byte) : Except FaultInfo (List Device) := memWrite mem addr .w8 b

/-! ### Requests (the Core-to-MMU interface) -/

/-- The direction of a request (R50). -/
inductive Direction where
  | load
  | store
deriving DecidableEq, Repr

/-- One request; its data is an unsigned integer of any size (R50). -/
structure Request where
  address : Int
  width : Width
  direction : Direction
  data : Option Nat
deriving DecidableEq, Repr

/-- The invariants: data is there exactly for a store, and fits the width (R51). -/
def Request.wellFormed (q : Request) : Bool :=
  match q.direction, q.data with
  | .load, none => true
  | .load, some _ => false
  | .store, none => false
  | .store, some v => decide (v < 2 ^ q.width.bits)

/-- The answer to a request: a value for a load, the devices after a store, or a fault (R50). -/
inductive Answer where
  | loaded (value : Nat)
  | stored (mem : List Device)
  | faulted (f : FaultInfo)
deriving DecidableEq, Repr

/-- The MMU's `access`: a well-formed request is a `memRead` or a `memWrite`; any other is refused (R50, R57, R59, U7). -/
def access (mem : List Device) (q : Request) : Except Refusal Answer :=
  match q.direction, q.data with
  | .load, none =>
    match memRead mem q.address q.width with
    | .ok v => .ok (.loaded v.toNat)
    | .error f => .ok (.faulted f)
  | .load, some _ => .error .illFormedRequest
  | .store, none => .error .illFormedRequest
  | .store, some v =>
    if v < 2 ^ q.width.bits then
      match memWrite mem q.address q.width (BitVec.ofNat q.width.bits v) with
      | .ok m => .ok (.stored m)
      | .error f => .ok (.faulted f)
    else .error .illFormedRequest

/-! ### Bracket matching -/

/-- Which way a scan goes (R167, R168). -/
inductive ScanDir where
  | forward
  | backward
deriving DecidableEq, Repr

/-- The address a scan from `a` reads at distance `k`: an integer, not reduced modulo `2^32` (R169). -/
def ScanDir.addr (dir : ScanDir) (a : Int) (k : Nat) : Int :=
  match dir with
  | .forward => a + (k : Int)
  | .backward => a - (k : Int)

/-- The bracket that makes the depth grow: the kind the scan starts from (R167, R168). -/
def ScanDir.opens : ScanDir → Byte
  | .forward => openBracket
  | .backward => closeBracket

/-- The bracket that makes the depth shrink (R167, R168). -/
def ScanDir.closes : ScanDir → Byte
  | .forward => closeBracket
  | .backward => openBracket

/-- The depth after one more byte (R167, R168). -/
def ScanDir.nextDepth (dir : ScanDir) (depth : Nat) (b : Byte) : Nat :=
  if b = dir.opens then depth + 1 else if b = dir.closes then depth - 1 else depth

/-- The loop of a scan that has passed `k` bytes and stands at `depth`. `fuel` bounds the reads; a scan started with
`2^32` of them leaves `[0, 2^32)` before they end (R169; log entry 9). -/
def scanFrom (mem : List Device) (dir : ScanDir) (a : Int) : Nat → Nat → Nat → Except FaultInfo Nat
  | 0, k, _ => .error (.unmappedAddress (dir.addr a (k + 1)))
  | fuel + 1, k, depth =>
    match readByte mem (dir.addr a (k + 1)) with
    | .error f => .error f
    | .ok b =>
      match dir.nextDepth depth b with
      | 0 => .ok (k + 1)
      | d + 1 => scanFrom mem dir a fuel (k + 1) (d + 1)

/-- A whole scan: depth 1 at distance 0 (R167 to R169). -/
def scan (mem : List Device) (dir : ScanDir) (a : Int) : Except FaultInfo Nat := scanFrom mem dir a 0x100000000 0 1

/-- `MatchForward(a)` (R167). -/
def matchForward (mem : List Device) (a : Word) : Except FaultInfo Nat := scan mem .forward (regRead a)

/-- `MatchBackward(a)` (R168). -/
def matchBackward (mem : List Device) (a : Word) : Except FaultInfo Nat := scan mem .backward (regRead a)

/-! ### Faults and reset -/

/-- Taking a fault: the status latch records it and nothing else changes (R170, R230, R231). -/
def takeFault (f : FaultInfo) (s : State) : State := { s with status := .faulted f }

/-- The state after the body of an instruction: what the body gives, or the fault taken on the state before it. -/
def finish (s : State) (result : Except FaultInfo State) : State :=
  match result with
  | .ok t => t
  | .error f => takeFault f s

/-- The numeric fault code: 0 for no fault, then the order of the taxonomy (R225, D4). -/
def FaultInfo.code : FaultInfo → Nat
  | .illegalOpcode _ _ => 1
  | .unmappedAddress _ => 2
  | .outOfRange _ _ => 3
  | .readOnlyViolation _ _ => 4

/-- The fault code of the status latch (R225). -/
def Status.faultCode : Status → Nat
  | .running => 0
  | .halted => 0
  | .faulted f => f.code

/-- Core reset, the host's construction of a core on the MMU as it stands: registers at their reset values, `Running`,
no output; memory is not touched. It is the machine's only way out of `Halted` and `Faulted` (R39, R232, R260); the
table-word interface `readyCore` has another, the model's own (log entry 20). -/
def coreReset (arch : Arch) (tmDpReset : Word) (s : State) : State :=
  { regs := RegFile.reset tmDpReset arch, mem := s.mem, out := [], status := .running }

/-! ### Fetch and decode -/

/-- `Fetch`: a load of the architecture's instruction width at `pc` (R161). -/
def fetch (s : State) : Except FaultInfo RawWord :=
  match s.arch with
  | .tm =>
    match memRead s.mem (regRead s.pc) .w8 with
    | .ok b => .ok (.tmB b)
    | .error f => .error f
  | .ls =>
    match memRead s.mem (regRead s.pc) .w32 with
    | .ok w => .ok (.lsW w)
    | .error f => .error f

/-- Fetch, then decode: a fetch fault, `IllegalOpcode` with the instruction's address and raw word, or the instruction
(R160, R161, R163, R226, R229). -/
def fetchDecode (s : State) : Except FaultInfo Instr :=
  match fetch s with
  | .error f => .error f
  | .ok raw =>
    match decode raw with
    | .error _ => .error (.illegalOpcode s.pc raw)
    | .ok i => .ok i

/-! ### The frame of a meaning -/

/-- A tape-machine instruction's body on the registers of a `TM` core; on a core of the other architecture there is no
such instruction (R104; log entry 10). -/
def onTape (s : State) (body : TmRegs → Except FaultInfo State) : Host.Outcome State Fault Refusal :=
  match s.regs with
  | .tm x => .next (finish s (body x))
  | .ls _ => .refused (.foreignInstruction .ls)

/-- The same for a load/store-machine instruction. -/
def onLoadStore (s : State) (body : LsRegs → Except FaultInfo State) : Host.Outcome State Fault Refusal :=
  match s.regs with
  | .ls x => .next (finish s (body x))
  | .tm _ => .refused (.foreignInstruction .tm)

/-- `pc <- pc + 1`, the advance of a tape-machine instruction (R27). -/
def TmRegs.advance (x : TmRegs) : TmRegs := { x with pc := regAdd x.pc 1 }

/-- `pc <- pc + 4`, the advance of a load/store-machine instruction (R27). -/
def LsRegs.advance (x : LsRegs) : LsRegs := { x with pc := regAdd x.pc 4 }

end Sys2Proof.Machine
end

