-- ==== Sys2Proof/Machine/LoadStore.lean ====
section
/-! DEFINITION. The meaning of the load/store machine's one instruction (`43_toy_loadstore.md` R210 to R212). -/

namespace Sys2Proof.Machine

open Sys2Proof

/-- `INC Rn` (R210): no memory access, no fault. -/
def execInc (n : RegIndex) (s : State) : Host.Outcome State Fault Refusal :=
  onLoadStore s fun x =>
    .ok { s with regs := .ls (x.setR n (regAdd (x.getR n) 1)).advance }

end Sys2Proof.Machine
end

