-- ==== Sys2Proof/Machine/Tape.lean ====
section
/-! DEFINITION. The meanings of the eight tape-machine instructions (`42_tape_machine.md` R180 to R190). Each body reads
before it writes and writes `pc` last, so a fault leaves everything but the status as it was (R231). -/

namespace Sys2Proof.Machine

open Sys2Proof

/-- `PINC` (R181). -/
def execPinc (s : State) : Host.Outcome State Fault Refusal :=
  onTape s fun x =>
    .ok { s with regs := .tm { x with dp := regAdd x.dp 1 }.advance }

/-- `PDEC` (R182). -/
def execPdec (s : State) : Host.Outcome State Fault Refusal :=
  onTape s fun x =>
    .ok { s with regs := .tm { x with dp := regSub x.dp 1 }.advance }

/-- The read-modify-write of the byte at `x[DP]`, then `pc + 1` (R183, R184, R189). -/
def modifyDataByte (s : State) (x : TmRegs) (f : Byte → Byte) : Except FaultInfo State :=
  match readByte s.mem (regRead x.dp) with
  | .error e => .error e
  | .ok b =>
    match writeByte s.mem (regRead x.dp) (f b) with
    | .error e => .error e
    | .ok mem => .ok { s with regs := .tm x.advance, mem := mem }

/-- `DINC`: modulo 256, with no carry into the next byte (R183, R189). -/
def execDinc (s : State) : Host.Outcome State Fault Refusal :=
  onTape s fun x => modifyDataByte s x (fun b => b + 1)

/-- `DDEC` (R184, R189). -/
def execDdec (s : State) : Host.Outcome State Fault Refusal :=
  onTape s fun x => modifyDataByte s x (fun b => b - 1)

/-- `JZF`: the data byte first; the scan only when the jump is taken; the target is after the match (R185, D10, D11). -/
def execJzf (s : State) : Host.Outcome State Fault Refusal :=
  onTape s fun x =>
    match readByte s.mem (regRead x.dp) with
    | .error e => .error e
    | .ok b =>
      if b = 0 then
        match matchForward s.mem x.pc with
        | .error e => .error e
        | .ok k => .ok { s with regs := .tm { x with pc := regAdd x.pc ((k : Int) + 1) } }
      else .ok { s with regs := .tm x.advance }

/-- `JNZB`: the mirror image, taken on a nonzero byte (R186, D10, D11, D13). -/
def execJnzb (s : State) : Host.Outcome State Fault Refusal :=
  onTape s fun x =>
    match readByte s.mem (regRead x.dp) with
    | .error e => .error e
    | .ok b =>
      if b ≠ 0 then
        match matchBackward s.mem x.pc with
        | .error e => .error e
        | .ok k => .ok { s with regs := .tm { x with pc := regAdd (regSub x.pc (k : Int)) 1 } }
      else .ok { s with regs := .tm x.advance }

/-- `OUT`: the byte as it is, appended to the sink (R187). -/
def execOut (s : State) : Host.Outcome State Fault Refusal :=
  onTape s fun x =>
    match readByte s.mem (regRead x.dp) with
    | .error e => .error e
    | .ok b => .ok { s with regs := .tm x.advance, out := s.out ++ [b] }

/-- `HALT`: only the status changes (R188). -/
def execHalt (s : State) : Host.Outcome State Fault Refusal :=
  onTape s fun _ => .ok { s with status := .halted }

end Sys2Proof.Machine
end

