-- ==== Sys2Proof/Machine/Dispatch.lean ====
section
/-! DEFINITION. `Execute`: one arm per instruction (`41_core_cycle.md` R165). -/

namespace Sys2Proof.Machine

open Sys2Proof

def exec (i : Instr) (s : State) : Host.Outcome State Fault Refusal :=
  match i with
  | .pinc => Sys2Proof.Machine.execPinc s
  | .pdec => Sys2Proof.Machine.execPdec s
  | .dinc => Sys2Proof.Machine.execDinc s
  | .ddec => Sys2Proof.Machine.execDdec s
  | .jzf => Sys2Proof.Machine.execJzf s
  | .jnzb => Sys2Proof.Machine.execJnzb s
  | .out => Sys2Proof.Machine.execOut s
  | .halt => Sys2Proof.Machine.execHalt s
  | .inc n => Sys2Proof.Machine.execInc n s

end Sys2Proof.Machine
end

