-- ==== Sys2Proof/Machine/Platform.lean ====
section
/-! DEFINITION. The host's side of the machine: building devices and a core, loading bytes, reading state
(`20_memory.md` R52 to R58, R79 to R81, `70_reset_and_hazards.md` R260 to R263). None of it is part of a step. -/

namespace Sys2Proof.Machine

open Sys2Proof

/-- A device with the given initial bytes and zeros after them, its range checked (R53, R56). -/
def buildStore (kind : DeviceKind) (base size : Nat) (init : List Byte) : Except Refusal Device :=
  if base + size ≤ 0x100000000 then
    .ok { kind := kind, base := base, size := size, bytes := Memory.writeCells [] 0 init }
  else .error .rangePastAddressSpace

/-- Device construction; a description the spec does not admit is refused (R53, R56, R57, R71, R261). -/
def buildDevice (c : DeviceDesc) : Except Refusal Device :=
  match c.kind with
  | .ram init => if init.length = c.size then buildStore .ram c.base c.size init else .error .ramInitLength
  | .rom image => if image.length ≤ c.size then buildStore .rom c.base c.size image else .error .imageTooLong
  | .zero => buildStore .zero c.base c.size []
  | .opaqueDevice => .error .opaqueDevice
  | .nestedMmu => .error .nestedMmu

/-- `add_device`: appended to the routing list, with no check of overlap (R58). -/
def addDevice (mem : List Device) (d : Device) : List Device := mem ++ [d]

/-- All devices of a configuration, added in order (R262 steps 1 and 2). -/
def buildDevices : List Device → List DeviceDesc → Except Refusal (List Device)
  | mem, [] => .ok mem
  | mem, c :: cs =>
    match buildDevice c with
    | .error e => .error e
    | .ok d => buildDevices (addDevice mem d) cs

/-- Boot: the MMU with its devices, then the core bound to it (R262). -/
def boot (cfg : Cfg) : Except Refusal State :=
  match buildDevices [] cfg.devices with
  | .error e => .error e
  | .ok mem => .ok { regs := RegFile.reset cfg.tmDpReset cfg.arch, mem := mem, out := [], status := .running }

/-- `load_data`: single-byte stores at consecutive addresses, each routed on its own. At the first fault it stops; the
bytes before stay written (R79, D32). -/
def loadData : List Device → Int → List Byte → List Device × Option FaultInfo
  | mem, _, [] => (mem, none)
  | mem, addr, b :: bs =>
    match writeByte mem addr b with
    | .error f => (mem, some f)
    | .ok mem' => loadData mem' (addr + 1) bs

/-- The host's `load_data` call on a machine between steps: its own faults do not touch the status (R263). -/
def hostLoadData (s : State) (addr : Int) (bs : List Byte) : State × Option FaultInfo :=
  ({ s with mem := (loadData s.mem addr bs).1 }, (loadData s.mem addr bs).2)

/-- The host's `update()` call on every device: nothing, for the kinds in scope (R81). -/
def hostUpdate (s : State) : State := s

/-- The host reads a register by name (R263). -/
def hostReadRegister (s : State) (name : RegName) : Option Word := s.regs.get? name

/-- What `step()` reports to the host (R263). -/
def hostStatus (s : State) : Status := s.status

/-- Bytes put into a device's storage as its construction puts an image, read-only or not (R56). -/
def Device.withBytes (d : Device) (off : Nat) (bs : List Byte) : Device :=
  { d with bytes := Memory.writeCells d.bytes off bs }

/-- The program's bytes placed at an address, in the device a fetch there is routed to; where no device holds them
whole, a code store with them is registered first (R262 step 3; log entry 5). -/
def installBytes (mem : List Device) (addr : Nat) (bs : List Byte) : List Device :=
  match route mem addr with
  | .ok d =>
    if d.offset addr + bs.length ≤ d.size then replaceRouted addr (d.withBytes (d.offset addr) bs) mem
    else { kind := .rom, base := addr, size := bs.length, bytes := Memory.writeCells [] 0 bs } :: mem
  | .error _ => { kind := .rom, base := addr, size := bs.length, bytes := Memory.writeCells [] 0 bs } :: mem

/-- Part of the table-word interface alone. A core of the row's architecture keeps its registers and its output and is set
`Running`, a halted or faulted one too; else a core is constructed for the architecture by `coreReset`. DESIGN CHOICE: the
spec knows no way from `Halted` or `Faulted` to `Running` but a reset, which keeps no registers (R232, R240; log entry
20). -/
def readyCore (arch : Arch) (s : State) : State :=
  if s.arch = arch then { s with status := .running } else coreReset arch tmRefDpReset s

/-- A machine of the table row's architecture with the row's bytes where its next fetch reads (log entries 5, 15, 20). -/
def installTableWord (s : State) (nbits w : Nat) : State :=
  { readyCore (tableArch nbits w) s with
    mem := installBytes s.mem (readyCore (tableArch nbits w) s).pc.toNat (tableBytes nbits w) }

end Sys2Proof.Machine
end

