-- ==== Sys2Proof/Machine/Step.lean ====
section
/-! DEFINITION. One step of the machine (`41_core_cycle.md` R160, R166, R170) and the word the host places for the next
fetch. -/

namespace Sys2Proof.Machine

open Sys2Proof

/-- `step()`: from `Running` it fetches, decodes and executes one instruction or takes the fault; from `Halted` and
`Faulted` there is no step. -/
def step (s : State) : Host.Outcome State Fault Refusal :=
  match s.status with
  | .halted => .fault .coreHalted
  | .faulted f => .fault (.coreFaulted f)
  | .running =>
    match fetchDecode s with
    | .error f => .next (takeFault f s)
    | .ok i => exec i s

/-- The machine with a word of `spec/opcode_table.json` placed where `step` fetches its next instruction. A dead core is
set `Running` for it: the model's own interface, no operation of the spec (log entries 5, 20). -/
def State.withFetchWord (s : State) (nbits w : Nat) : State := installTableWord s nbits w

end Sys2Proof.Machine
end

