-- ==== Sys2Proof/Safety.lean ====
section
/-! DEFINITION. The terms claims are made in: the invariant of a state, the geometry and the code stores no step changes,
non-overlap, what a bracket scan has read, and the end of a run. -/

namespace Sys2Proof.Machine

open Sys2Proof

/-- A device as the spec admits it: storage in canonical form and inside the device, range inside the address space
(`10_state.md` R34, `20_memory.md` R53). -/
abbrev Device.wf (d : Device) : Prop :=
  Memory.wf d.bytes ∧ (∀ c ∈ d.bytes, c.1 < d.size) ∧ d.base + d.size ≤ 0x100000000

/-- The invariant of a state: every device is as the spec admits it. -/
abbrev State.Inv (s : State) : Prop := ∀ d ∈ s.mem, d.wf

/-- Kind, base and size of a device: immutable after construction (R20, R52). -/
def Device.geometry (d : Device) : DeviceKind × Nat × Nat := (d.kind, d.base, d.size)

/-- The geometry of the whole list, in registration order (R20, R58). -/
def memGeometry (mem : List Device) : List (DeviceKind × Nat × Nat) := mem.map Device.geometry

/-- The code stores, whose bytes never change (R56). -/
def codeStores (mem : List Device) : List Device := mem.filter (fun d => decide (d.kind = .rom))

/-- Two ranges share no address (R80). -/
abbrev Device.disjoint (d e : Device) : Prop :=
  d.size = 0 ∨ e.size = 0 ∨ d.base + d.size ≤ e.base ∨ e.base + e.size ≤ d.base

/-- `NoOverlap(Cfg)` (R80). -/
abbrev NoOverlap (mem : List Device) : Prop := mem.Pairwise Device.disjoint

/-- The depth a scan has after reading `bs`: 1, plus the brackets of its own kind, minus the others (R167, R168). -/
def ScanDir.balance (dir : ScanDir) (bs : List Byte) : Int :=
  1 + (bs.count dir.opens : Int) - (bs.count dir.closes : Int)

/-- From `a` on a scan reads the bytes `bs` without fault, and its depth stays positive all the way. -/
def ScanPrefix (mem : List Device) (dir : ScanDir) (a : Int) (bs : List Byte) : Prop :=
  (∀ j (h : j < bs.length), readByte mem (dir.addr a (j + 1)) = .ok bs[j]) ∧
  ∀ j, j ≤ bs.length → 0 < dir.balance (bs.take j)

/-- The bracket that matches the one at `a` stands at distance `k`: the depth is 0 there and at no smaller distance
(R167, R168). -/
def BracketMatch (mem : List Device) (dir : ScanDir) (a : Int) (k : Nat) : Prop :=
  ∃ bs b, ScanPrefix mem dir a bs ∧ k = bs.length + 1 ∧ readByte mem (dir.addr a k) = .ok b ∧
    dir.balance (bs ++ [b]) = 0

/-- The scan from `a` leaves mapped memory at distance `k`, before any match (R169). -/
def BracketRunsOff (mem : List Device) (dir : ScanDir) (a : Int) (k : Nat) : Prop :=
  ∃ bs, ScanPrefix mem dir a bs ∧ k = bs.length + 1 ∧ readByte mem (dir.addr a k) = .error (.unmappedAddress (dir.addr a k))

/-- `WellBracketed` of the code region `[lo, hi)`: every bracket byte in it has its match inside mapped memory (the
predicate of `92_eei_decisions.md` D11). -/
def WellBracketed (mem : List Device) (lo hi : Int) : Prop :=
  ∀ a : Int, lo ≤ a → a < hi →
    (readByte mem a = .ok openBracket → ∃ k, BracketMatch mem .forward a k) ∧
    (readByte mem a = .ok closeBracket → ∃ k, BracketMatch mem .backward a k)

/-- The run is over (R268). -/
def State.dead (s : State) : Prop := s.status ≠ .running

/-- The run ended well (R268). -/
def State.endedWell (s : State) : Prop := s.status = .halted

/-- A store of a raw instruction word at an address, one access of the instruction's width (R64). -/
def storeRaw (mem : List Device) (addr : Int) : RawWord → Except FaultInfo (List Device)
  | .tmB b => memWrite mem addr .w8 b
  | .lsW w => memWrite mem addr .w32 w

end Sys2Proof.Machine
end

