-- ==== Sys2Proof/Certificates/Slice0/Obligations.lean ====
section
/-! DEFINITION. The statements for the provers, from the numbered rules of `spec/`. A docstring names the rule a statement
formalises, or says that it rests on a decision or an inference of the spec or on a choice of the model (with its log
entry). Every equation `exec i s = .next { s with … }` is also the instruction's frame: all that is not named stays. -/

open Sys2Proof Sys2Proof.Machine

/-! ### The register and its nine operations -/

/-- `40_register_ops.md` R131: construction reduces modulo `2^32`; reading gives the held value. -/
def Obligations.RegisterHoldsValueModulo : Prop :=
  ∀ v : Int, regRead (regOfInt v) = v % 4294967296

/-- `40_register_ops.md` R133, R134, R135: sum, difference and product on integers, reduced modulo `2^32`; no fault. -/
def Obligations.RegisterAddSubMulWrap : Prop :=
  ∀ (arch : Arch) (a : Word) (b : Int),
    (∃ v, regEval arch .add a b = .ok v ∧ regRead v = (regRead a + b) % 4294967296) ∧
    (∃ v, regEval arch .sub a b = .ok v ∧ regRead v = (regRead a - b) % 4294967296) ∧
    (∃ v, regEval arch .mul a b = .ok v ∧ regRead v = (regRead a * b) % 4294967296)

/-- `40_register_ops.md` R137, R138: shifts by any non-negative count, not reduced modulo 32, the right one logical. -/
def Obligations.RegisterShiftsUseWholeCount : Prop :=
  ∀ (arch : Arch) (a : Word) (b : Int), 0 ≤ b →
    (∃ v, regEval arch .shl a b = .ok v ∧ regRead v = (regRead a * 2 ^ b.toNat) % 4294967296) ∧
    (∃ v, regEval arch .shr a b = .ok v ∧ regRead v = regRead a / 2 ^ b.toNat)

/-- `40_register_ops.md` R139, R140, R141: bit by bit on `a` and `b mod 2^32`; no fault. -/
def Obligations.RegisterBitwiseOnReducedOperand : Prop :=
  ∀ (arch : Arch) (a : Word) (b : Int),
    (∃ v, regEval arch .and a b = .ok v ∧
      ∀ i, i < 32 → v.getLsbD i = (a.getLsbD i && (b % 4294967296).toNat.testBit i)) ∧
    (∃ v, regEval arch .or a b = .ok v ∧
      ∀ i, i < 32 → v.getLsbD i = (a.getLsbD i || (b % 4294967296).toNat.testBit i)) ∧
    (∃ v, regEval arch .xor a b = .ok v ∧
      ∀ i, i < 32 → v.getLsbD i = (a.getLsbD i != (b % 4294967296).toNat.testBit i))

/-- `40_register_ops.md` division section: the quotient on unreduced operands, rounded toward minus infinity, then
reduced; for a positive divisor no wrap. Floor is the spec's decision D15 (log entry 11). -/
def Obligations.RegisterDivisionFloors : Prop :=
  ∀ (arch : Arch) (a : Word) (b : Int), b ≠ 0 →
    ∃ v, regEval arch .div a b = .ok v ∧ regRead v = (regRead a).fdiv b % 4294967296 ∧
      (0 < b → regRead v = regRead a / b ∧ regRead v ≤ regRead a)

/-- `40_register_ops.md` operand domain: division by zero and a negative shift count are refused. That a model refuses
them is the spec's decision D15 (log entry 11). -/
def Obligations.RegisterDomainRefused : Prop :=
  ∀ (arch : Arch) (a : Word) (b : Int),
    regEval arch .div a 0 = .error .divisionByZero ∧
    (b < 0 → regEval arch .shl a b = .error .negativeShift ∧ regEval arch .shr a b = .error .negativeShift)

/-- `40_register_ops.md` R142: the mutating form writes what the non-mutating form returns into its register; every other
register keeps its value. -/
def Obligations.MutatingFormWritesOnlyItsRegister : Prop :=
  ∀ (x : RegFile) (op : RegOp) (name : RegName) (b : Int) (a v : Word),
    x.get? name = some a → regEval x.arch op a b = .ok v →
      ∃ y, x.apply op name b = .ok y ∧ y.arch = x.arch ∧ y.get? name = some v ∧
        ∀ m, m ≠ name → y.get? m = x.get? m

/-- `10_state.md` R22: a name has a register exactly when it is in the architecture's declared list. -/
def Obligations.RegisterNamesAreTheDeclaredOnes : Prop :=
  ∀ (x : RegFile) (name : RegName), (x.get? name).isSome = true ↔ name ∈ x.arch.regNames

/-! ### Devices and the MMU -/

/-- `20_memory.md` R59: the first device in registration order whose half-open range holds the address answers the
access; no device is `UnmappedAddress`. The first clause asks of the device what the spec asks of every device of a
configuration (R53). -/
def Obligations.RouteIsFirstMatch : Prop :=
  (∀ (before after : List Device) (d : Device) (a : Int),
    d.base + d.size ≤ 4294967296 → (d.base : Int) ≤ a → a < (d.base : Int) + d.size →
    (∀ e ∈ before, ¬ ((e.base : Int) ≤ a ∧ a < (e.base : Int) + e.size)) →
      route (before ++ d :: after) a = .ok d ∧
      ∀ w, memRead (before ++ d :: after) a w = devLoad d a w ∧
        ∀ v, (∀ d', devStore d a w v = .ok d' →
            memWrite (before ++ d :: after) a w v = .ok (before ++ d' :: after)) ∧
          ∀ f, devStore d a w v = .error f → memWrite (before ++ d :: after) a w v = .error f) ∧
  (∀ (mem : List Device) (a : Int),
    (∀ e ∈ mem, ¬ ((e.base : Int) ≤ a ∧ a < (e.base : Int) + e.size)) → route mem a = .error (.unmappedAddress a))

/-- `10_state.md` address space: no load and no store reaches an address outside `[0, 2^32)`, whatever the device list
holds. The spec's decisions D12, D16 (log entry 9). -/
def Obligations.AddressesOutsideTheSpaceAreUnmapped : Prop :=
  ∀ (mem : List Device) (a : Int) (w : Width) (v : BitVec w.bits), (a < 0 ∨ 4294967296 ≤ a) →
    memRead mem a w = .error (.unmappedAddress a) ∧ memWrite mem a w v = .error (.unmappedAddress a)

/-- `20_memory.md` R63: loads and stores of every width are little-endian, and a load of the width just stored returns
the stored value. -/
def Obligations.AccessesAreLittleEndian : Prop :=
  (∀ (d : Device) (a : Int) (w : Width) (v : BitVec w.bits), devLoad d a w = .ok v →
    ∀ i, i < w.bytes → byteAt v i = Memory.readCell d.bytes (d.offset a + i)) ∧
  (∀ (d d' : Device) (a : Int) (w : Width) (v : BitVec w.bits), devStore d a w v = .ok d' →
    ∀ i, i < w.bytes → Memory.readCell d'.bytes (d.offset a + i) = byteAt v i) ∧
  (∀ (mem mem' : List Device) (a : Int) (w : Width) (v : BitVec w.bits), memWrite mem a w v = .ok mem' →
    memRead mem' a w = .ok v)

/-- `20_memory.md` stores: exactly the `n` bytes in the one device routed to change; geometry, every other device and
every other address stay. That all bytes are written or none is the spec's decision D19. -/
def Obligations.StoreChangesOnlyItsBytes : Prop :=
  ∀ (mem mem' : List Device) (a : Int) (w : Width) (v : BitVec w.bits), memWrite mem a w v = .ok mem' →
    (∃ before d d' after, mem = before ++ d :: after ∧ mem' = before ++ d' :: after ∧ route mem a = .ok d ∧
      d'.geometry = d.geometry ∧ (∀ i, i < w.bytes → Memory.readCell d'.bytes (d.offset a + i) = byteAt v i) ∧
      ∀ i, (i < d.offset a ∨ d.offset a + w.bytes ≤ i) → Memory.readCell d'.bytes i = Memory.readCell d.bytes i) ∧
    memGeometry mem' = memGeometry mem ∧
    ∀ x : Int, (x < a ∨ a + w.bytes ≤ x) → readByte mem' x = readByte mem x

/-- `20_memory.md` device contract and `60_exceptions.md` priority: routing first, then for a store the read-only test,
then the bounds; otherwise the access succeeds. The order of the two device checks is the spec's decision D18. -/
def Obligations.AccessFaultsInOrder : Prop :=
  ∀ (mem : List Device) (a : Int) (w : Width) (v : BitVec w.bits),
    (∀ f, route mem a = .error f →
      memRead mem a w = .error (.unmappedAddress a) ∧ memWrite mem a w v = .error (.unmappedAddress a)) ∧
    ∀ d, route mem a = .ok d →
      ((d.base : Int) + d.size < a + w.bytes → memRead mem a w = .error (.outOfRange a w)) ∧
      (a + w.bytes ≤ (d.base : Int) + d.size → ∃ u, memRead mem a w = .ok u) ∧
      (d.kind = .rom → memWrite mem a w v = .error (.readOnlyViolation a w)) ∧
      (d.kind ≠ .rom → (d.base : Int) + d.size < a + w.bytes → memWrite mem a w v = .error (.outOfRange a w)) ∧
      (d.kind ≠ .rom → a + w.bytes ≤ (d.base : Int) + d.size → ∃ mem', memWrite mem a w v = .ok mem')

/-- `20_memory.md` overlap: under `NoOverlap` registration order has no effect on routing. First-match on overlap is the
spec's decision D23. -/
def Obligations.NoOverlapMakesOrderIrrelevant : Prop :=
  ∀ (mem mem' : List Device), NoOverlap mem → mem.Perm mem' → ∀ a : Int, route mem' a = route mem a

/-- `20_memory.md` `load_data` without a fault: every byte stands at its address, every other address reads as before,
geometry stays. Addresses are not wrapped: the spec's decision D32. -/
def Obligations.LoadDataWritesEveryByte : Prop :=
  ∀ (mem mem' : List Device) (a : Int) (bs : List Byte), loadData mem a bs = (mem', none) →
    (∀ i (h : i < bs.length), readByte mem' (a + i) = .ok bs[i]) ∧
    (∀ x : Int, (x < a ∨ a + bs.length ≤ x) → readByte mem' x = readByte mem x) ∧
    memGeometry mem' = memGeometry mem

/-- `20_memory.md` `load_data` with a fault at byte `i`: the bytes before it are written, byte `i` is the one that
faults. The spec's decision D32. -/
def Obligations.LoadDataStopsAtTheFaultingByte : Prop :=
  ∀ (mem mem' : List Device) (a : Int) (bs : List Byte) (f : FaultInfo), loadData mem a bs = (mem', some f) →
    ∃ i, ∃ h : i < bs.length, loadData mem a (bs.take i) = (mem', none) ∧ writeByte mem' (a + i) bs[i] = .error f

/-- `20_memory.md` requests: an ill-formed one is refused, a well-formed one is the load or the store of its width. That
oversize data is ill-formed is the spec's decision D17. -/
def Obligations.RequestsAreLoadsOrStores : Prop :=
  ∀ (mem : List Device) (a : Int) (w : Width),
    (∀ q : Request, q.wellFormed = false → access mem q = .error .illFormedRequest) ∧
    (∀ v, memRead mem a w = .ok v → access mem ⟨a, w, .load, none⟩ = .ok (.loaded v.toNat)) ∧
    (∀ f, memRead mem a w = .error f → access mem ⟨a, w, .load, none⟩ = .ok (.faulted f)) ∧
    (∀ (v : BitVec w.bits) mem', memWrite mem a w v = .ok mem' →
      access mem ⟨a, w, .store, some v.toNat⟩ = .ok (.stored mem')) ∧
    (∀ (v : BitVec w.bits) f, memWrite mem a w v = .error f →
      access mem ⟨a, w, .store, some v.toNat⟩ = .ok (.faulted f))

/-- `20_memory.md` device kinds: an admitted device is built with its image and zeros, zeros, or exactly the given RAM
bytes, and meets the invariant. Which descriptions are admitted is the spec's decision D16; that a RAM's bytes are an
argument is its decision D22 (log entry 4). -/
def Obligations.BuiltDevicesHoldTheirBytes : Prop :=
  ∀ (base size : Nat) (bs : List Byte), base + size ≤ 4294967296 →
    (bs.length ≤ size → ∃ d, buildDevice ⟨.rom bs, base, size⟩ = .ok d ∧ d.wf ∧ d.geometry = (.rom, base, size) ∧
      ∀ i, i < size → Memory.readCell d.bytes i = bs.getD i 0) ∧
    (bs.length = size → ∃ d, buildDevice ⟨.ram bs, base, size⟩ = .ok d ∧ d.wf ∧ d.geometry = (.ram, base, size) ∧
      ∀ i (h : i < bs.length), Memory.readCell d.bytes i = bs[i]) ∧
    (∃ d, buildDevice ⟨.zero, base, size⟩ = .ok d ∧ d.wf ∧ d.geometry = (.zero, base, size) ∧
      ∀ i, Memory.readCell d.bytes i = 0)

/-- `20_memory.md` construction: what the spec does not admit is refused by name: a too long image, RAM bytes that are
not `size` many, a range past `2^32` for each of the three kinds, an opaque device, a nested MMU. The spec's decisions
D16, D24, D25 (log entry 12). -/
def Obligations.InadmissibleDevicesRefused : Prop :=
  ∀ (base size : Nat) (bs : List Byte),
    (size < bs.length → buildDevice ⟨.rom bs, base, size⟩ = .error .imageTooLong) ∧
    (bs.length ≠ size → buildDevice ⟨.ram bs, base, size⟩ = .error .ramInitLength) ∧
    (4294967296 < base + size →
      (bs.length ≤ size → buildDevice ⟨.rom bs, base, size⟩ = .error .rangePastAddressSpace) ∧
      (bs.length = size → buildDevice ⟨.ram bs, base, size⟩ = .error .rangePastAddressSpace) ∧
      buildDevice ⟨.zero, base, size⟩ = .error .rangePastAddressSpace) ∧
    buildDevice ⟨.opaqueDevice, base, size⟩ = .error .opaqueDevice ∧
    buildDevice ⟨.nestedMmu, base, size⟩ = .error .nestedMmu

/-! ### Decode and encode -/

/-- `30_encoding.md` opcode maps and the spec's test vectors: words written out from the encodings. Four of the byte
values are the spec's decision D9 (log entry 7). -/
def Obligations.FamilyWordsDecode : Prop :=
  decode (.tmB 0b00111110#8) = .ok .pinc ∧
  decode (.tmB 0b00101011#8) = .ok .dinc ∧
  decode (.tmB 0b01011011#8) = .ok .jzf ∧
  decode (.tmB 0b00101110#8) = .ok .out ∧
  decodeBytes .ls [0x01, 0x0F, 0x00, 0x00] = .ok (.inc 15) ∧
  decodeBytes .ls [0x01, 0xF1, 0xFF, 0xFF] = .ok (.inc 1)

/-- Decode and encode agree: every instruction is read back from its encoding, as a word and as bytes in memory order,
and whatever decodes to an instruction is its encoding up to the ignored bits `raw[31:12]`. The byte values and the
index position are the spec's decision D9 and inference in rule 107 (log entry 7). -/
def Obligations.DecodeAndEncodeAgree : Prop :=
  (∀ i : Instr, decode (encode i) = .ok i ∧ decodeBytes i.arch (encodeBytes i) = .ok i) ∧
  (∀ (b : BitVec 8) (i : Instr), decode (.tmB b) = .ok i → encode i = .tmB b) ∧
  (∀ (w : BitVec 32) (i : Instr), decode (.lsW w) = .ok i → encode i = .lsW (w &&& 0xFFF#32))

/-- `30_encoding.md` illegal encodings: exactly the 248 byte values of the tape machine and the 255 low bytes of the
load/store machine that are not in the map. The values are the spec's decision D9 (log entry 7). -/
def Obligations.UnlistedOpcodesAreIllegal : Prop :=
  (∀ b : BitVec 8, (∃ e, decode (.tmB b) = .error e) ↔
    b ∉ [0x00#8, 0x2B#8, 0x2D#8, 0x2E#8, 0x3C#8, 0x3E#8, 0x5B#8, 0x5D#8]) ∧
  (∀ w : BitVec 32, (∃ e, decode (.lsW w) = .error e) ↔ w.toNat % 256 ≠ 1)

/-! ### The step -/

/-- `41_core_cycle.md` R160: a running core executes the instruction it fetched and decoded; nothing is added around
`exec`. -/
def Obligations.StepRunsDecodedInstruction : Prop :=
  ∀ (s : State) (raw : RawWord) (i : Instr),
    s.status = .running → fetch s = .ok raw → decode raw = .ok i → step s = exec i s

/-- `20_memory.md` fetch coherence with `30_encoding.md`: an instruction stored at `pc`, in a device that can be written,
is the one the very next step runs. The coherence is an inference of the spec (its rule 77). -/
def Obligations.StoredInstructionRunsNext : Prop :=
  ∀ (s : State) (i : Instr) (mem' : List Device),
    s.status = .running → i.wellFormed s.arch = true → storeRaw s.mem (regRead s.pc) (encode i) = .ok mem' →
      step { s with mem := mem' } = exec i { s with mem := mem' }

/-- The host's word of the opcode table, placed in any machine, is the instruction the next step runs, provided its bytes
do not pass the end of the address space. The model's own interface, which also sets a halted or faulted core running
(log entries 5, 15, 20). -/
def Obligations.PlacedTableWordRunsNext : Prop :=
  ∀ (s : State) (nbits w : Nat) (i : Instr), decodeTableWord nbits w = some i →
    (readyCore (tableArch nbits w) s).pc.toNat + (tableArch nbits w).ib ≤ 4294967296 →
      step (s.withFetchWord nbits w) = exec i (s.withFetchWord nbits w)

/-- `41_core_cycle.md` fetch and decode faults: unmapped `pc`, a 32-bit fetch past the end of its device, an opcode that
is in no table; the step takes the fault and changes nothing but the status. Precision is the spec's decision D3, the
latch its decision D2 (log entry 6). -/
def Obligations.FetchAndDecodeFaultsAreTaken : Prop :=
  ∀ s : State, s.status = .running →
    (∀ f, route s.mem (regRead s.pc) = .error f →
      step s = .next { s with status := .faulted (.unmappedAddress (regRead s.pc)) }) ∧
    (∀ d, s.arch = .ls → route s.mem (regRead s.pc) = .ok d → (d.base : Int) + d.size < regRead s.pc + 4 →
      step s = .next { s with status := .faulted (.outOfRange (regRead s.pc) .w32) }) ∧
    (∀ raw e, fetch s = .ok raw → decode raw = .error e →
      step s = .next { s with status := .faulted (.illegalOpcode s.pc raw) })

/-- `41_core_cycle.md` dead core: no step exists from `Halted` or `Faulted(f)`; the model stops by name. The spec's
decision D29 (log entry 6). -/
def Obligations.DeadCoreTakesNoStep : Prop :=
  ∀ s : State, (s.status = .halted → step s = .fault .coreHalted) ∧
    ∀ f, s.status = .faulted f → step s = .fault (.coreFaulted f)

/-- `70_reset_and_hazards.md` core reset: every register at its reset value, no output, `Running`; memory untouched. The
values are the spec's decisions D6, D7, D8, D28; `TM_DP_RESET` is the argument `v`. -/
def Obligations.CoreResetGivesResetValues : Prop :=
  ∀ (arch : Arch) (v : Word) (s : State),
    (coreReset arch v s).arch = arch ∧
    (∀ name ∈ arch.regNames, (coreReset arch v s).regs.get? name =
      some (if arch = .tm ∧ name = .dp then v else 0)) ∧
    (coreReset arch v s).mem = s.mem ∧ (coreReset arch v s).out = [] ∧ (coreReset arch v s).status = .running

/-- The state the model resets to meets the invariant. Its devices are the model's choice (log entry 2). -/
def Obligations.ResetMeetsInvariant : Prop := State.reset.Inv

/-- `10_state.md` and `20_memory.md`: every step keeps the invariant: each device's storage in canonical form and inside
the device, its range inside the address space. That every device is so is the spec's decision D16. -/
def Obligations.StepKeepsInvariant : Prop :=
  ∀ s t : State, s.Inv → step s = .next t → t.Inv

/-- `10_state.md` parameters and `20_memory.md` code stores: no step changes the architecture, the geometry and
registration order of the devices, or a byte of a code store. -/
def Obligations.StepKeepsGeometryAndCodeStores : Prop :=
  ∀ s t : State, step s = .next t →
    t.arch = s.arch ∧ memGeometry t.mem = memGeometry s.mem ∧ codeStores t.mem = codeStores s.mem

/-- `10_state.md` output sink: append-only, and only `OUT` appends, one byte, the byte at `x[DP]`. The sink in the state
is the spec's decision D26. -/
def Obligations.OutputGrowsOnlyByOut : Prop :=
  ∀ s t : State, step s = .next t →
    t.out = s.out ∨
      ∃ x b, s.regs = .tm x ∧ fetchDecode s = .ok .out ∧ readByte s.mem (regRead x.dp) = .ok b ∧ t.out = s.out ++ [b]

/-- `42_tape_machine.md` and `43_toy_loadstore.md`: memory changes by `DINC` and `DDEC` alone, and there only the byte at
`x[DP]`. An inference over the instruction rules. -/
def Obligations.MemoryChangesOnlyAtTheDataPointer : Prop :=
  ∀ (i : Instr) (s t : State), exec i s = .next t →
    t.mem = s.mem ∨
      (i = .dinc ∨ i = .ddec) ∧ ∃ x, s.regs = .tm x ∧
        ∀ a : Int, a ≠ regRead x.dp → readByte t.mem a = readByte s.mem a

/-- `60_exceptions.md` precise faults: a step that faults changes nothing but the status. The spec's decision D3. -/
def Obligations.FaultingStepChangesOnlyStatus : Prop :=
  ∀ (s t : State) (f : FaultInfo), step s = .next t → t.status = .faulted f →
    t = { s with status := .faulted f }

/-- `70_reset_and_hazards.md` end of a run: a step halts the core exactly when it ran `HALT`. -/
def Obligations.OnlyHaltHalts : Prop :=
  ∀ s t : State, step s = .next t → (t.status = .halted ↔ fetchDecode s = .ok .halt)

/-- `60_exceptions.md` table of which step can raise what: a fault taken by a step is the fault of its fetch, or
`IllegalOpcode` of what it fetched, or one its instruction may raise: `DINC` and `DDEC` by their access at `DP`, `OUT` by
its load, the jumps by their load and, only when taken, by the scan that runs off. So a step that decoded `PINC`, `PDEC`,
`HALT` or `INC` takes none. That a step takes the fault as a status is the spec's decision D2; which access a jump makes
first, its decision D11; unwrapped scan addresses, its decision D12 (log entries 6, 8, 9). -/
def Obligations.FaultsOfEachStep : Prop :=
  ∀ (s t : State) (f : FaultInfo), step s = .next t → t.status = .faulted f →
    (fetch s = .error f ∧
      (f = .unmappedAddress (regRead s.pc) ∨ s.arch = .ls ∧ f = .outOfRange (regRead s.pc) .w32)) ∨
    (∃ raw e, fetch s = .ok raw ∧ decode raw = .error e ∧ f = .illegalOpcode s.pc raw) ∨
    ∃ x, s.regs = .tm x ∧
      (((fetchDecode s = .ok .dinc ∨ fetchDecode s = .ok .ddec) ∧
          (f = .unmappedAddress (regRead x.dp) ∧ readByte s.mem (regRead x.dp) = .error f ∨
            f = .readOnlyViolation (regRead x.dp) .w8 ∧
              ∃ d, route s.mem (regRead x.dp) = .ok d ∧ d.kind = .rom)) ∨
        (fetchDecode s = .ok .out ∧ f = .unmappedAddress (regRead x.dp) ∧ readByte s.mem (regRead x.dp) = .error f) ∨
        (fetchDecode s = .ok .jzf ∧
          (f = .unmappedAddress (regRead x.dp) ∧ readByte s.mem (regRead x.dp) = .error f ∨
            readByte s.mem (regRead x.dp) = .ok 0 ∧
              ∃ j, BracketRunsOff s.mem .forward (regRead x.pc) j ∧ f = .unmappedAddress (regRead x.pc + j))) ∨
        (fetchDecode s = .ok .jnzb ∧
          (f = .unmappedAddress (regRead x.dp) ∧ readByte s.mem (regRead x.dp) = .error f ∨
            (∃ b, readByte s.mem (regRead x.dp) = .ok b ∧ b ≠ 0) ∧
              ∃ j, BracketRunsOff s.mem .backward (regRead x.pc) j ∧ f = .unmappedAddress (regRead x.pc - j))))

/-- `60_exceptions.md` codes and the four-member taxonomy: 1 to 4 in its order, also as the status latch shows them, and
0 exactly when there is no fault. The spec's decision D4 (log entry 14). -/
def Obligations.FaultCodesFollowTheTaxonomy : Prop :=
  (∀ pc raw, (FaultInfo.illegalOpcode pc raw).code = 1) ∧ (∀ a, (FaultInfo.unmappedAddress a).code = 2) ∧
  (∀ a w, (FaultInfo.outOfRange a w).code = 3) ∧ (∀ a w, (FaultInfo.readOnlyViolation a w).code = 4) ∧
  (∀ f, (Status.faulted f).faultCode = f.code) ∧
  ∀ st : Status, st.faultCode = 0 ↔ ∀ f, st ≠ .faulted f

/-! ### Bracket matching -/

/-- `41_core_cycle.md` scans: in either direction a scan answers distance `k` exactly when the matching bracket stands
there, and faults exactly when it leaves mapped memory before a match, with the address it left at; it does one of the
two. Unwrapped scan addresses are the spec's decision D12 (log entry 9). -/
def Obligations.ScanFindsTheMatchOrRunsOff : Prop :=
  ∀ (mem : List Device) (dir : ScanDir) (a : Int),
    (∀ k, scan mem dir a = .ok k ↔ BracketMatch mem dir a k) ∧
    (∀ f, scan mem dir a = .error f ↔ ∃ k, BracketRunsOff mem dir a k ∧ f = .unmappedAddress (dir.addr a k))

/-- `41_core_cycle.md` example of the source: in `[[]]` the forward scan from the first bracket finds the last one, at
distance 3, and the backward scan from the last finds the first; wherever the four bytes stand. -/
def Obligations.NestedBracketsMatchByDepth : Prop :=
  ∀ (mem : List Device) (a : Int),
    readByte mem a = .ok 0x5B#8 → readByte mem (a + 1) = .ok 0x5B#8 →
    readByte mem (a + 2) = .ok 0x5D#8 → readByte mem (a + 3) = .ok 0x5D#8 →
      scan mem .forward a = .ok 3 ∧ scan mem .forward (a + 1) = .ok 1 ∧
      scan mem .backward (a + 3) = .ok 3 ∧ scan mem .backward (a + 2) = .ok 1

/-! ### The tape-machine instructions -/

/-- `42_tape_machine.md` `PINC` and `PDEC`: `DP` moves by one modulo `2^32`, `pc` by one; no fault, whatever `DP` points at.
That the instruction writes `pc` is the spec's decision D5. -/
def Obligations.PointerInstructionsMoveDp : Prop :=
  ∀ (s : State) (x : TmRegs), s.regs = .tm x →
    exec .pinc s = .next { s with regs := .tm { dp := x.dp + 1, pc := x.pc + 1 } } ∧
    exec .pdec s = .next { s with regs := .tm { dp := x.dp - 1, pc := x.pc + 1 } }

/-- `42_tape_machine.md` `DINC` and `DDEC`: on a byte of a writable device they complete; the byte at `x[DP]` moves by one
modulo 256, every other address reads as before, no code store changes, `pc` moves by one, `DP`, output and status stay.
That the instruction writes `pc` is the spec's decision D5. -/
def Obligations.DataInstructionsChangeTheByteAtDp : Prop :=
  ∀ (s : State) (x : TmRegs) (d : Device), s.regs = .tm x → route s.mem (regRead x.dp) = .ok d → d.kind ≠ .rom →
    ∃ b, readByte s.mem (regRead x.dp) = .ok b ∧
      (∃ mem, exec .dinc s = .next { s with regs := .tm { x with pc := x.pc + 1 }, mem := mem } ∧
        writeByte s.mem (regRead x.dp) (b + 1) = .ok mem ∧ readByte mem (regRead x.dp) = .ok (b + 1) ∧
        memGeometry mem = memGeometry s.mem ∧ codeStores mem = codeStores s.mem ∧
        ∀ a : Int, a ≠ regRead x.dp → readByte mem a = readByte s.mem a) ∧
      (∃ mem, exec .ddec s = .next { s with regs := .tm { x with pc := x.pc + 1 }, mem := mem } ∧
        writeByte s.mem (regRead x.dp) (b - 1) = .ok mem ∧ readByte mem (regRead x.dp) = .ok (b - 1) ∧
        memGeometry mem = memGeometry s.mem ∧ codeStores mem = codeStores s.mem ∧
        ∀ a : Int, a ≠ regRead x.dp → readByte mem a = readByte s.mem a)

/-- `42_tape_machine.md` `DINC` and `DDEC` faults: unmapped `DP` from the load, a code store from the store; only the
status changes. The spec's decisions D3 and D18. -/
def Obligations.DataInstructionFaults : Prop :=
  ∀ (s : State) (x : TmRegs), s.regs = .tm x →
    (∀ f, route s.mem (regRead x.dp) = .error f →
      exec .dinc s = .next { s with status := .faulted (.unmappedAddress (regRead x.dp)) } ∧
      exec .ddec s = .next { s with status := .faulted (.unmappedAddress (regRead x.dp)) }) ∧
    (∀ d, route s.mem (regRead x.dp) = .ok d → d.kind = .rom →
      exec .dinc s = .next { s with status := .faulted (.readOnlyViolation (regRead x.dp) .w8) } ∧
      exec .ddec s = .next { s with status := .faulted (.readOnlyViolation (regRead x.dp) .w8) })

/-- `42_tape_machine.md` jumps not taken: `JZF` on a nonzero byte and `JNZB` on a zero byte advance `pc` by one without a
scan, matched or not. The lazy scan is the spec's decision D11 (log entry 8). -/
def Obligations.JumpsNotTakenFallThrough : Prop :=
  ∀ (s : State) (x : TmRegs) (b : Byte), s.regs = .tm x → readByte s.mem (regRead x.dp) = .ok b →
    (b ≠ 0 → exec .jzf s = .next { s with regs := .tm { x with pc := x.pc + 1 } }) ∧
    (b = 0 → exec .jnzb s = .next { s with regs := .tm { x with pc := x.pc + 1 } })

/-- `42_tape_machine.md` `JZF` taken: to the instruction after the matching close bracket, modulo `2^32`. The landing point
is the spec's decision D10 (log entry 8). -/
def Obligations.JzfJumpsPastItsMatch : Prop :=
  ∀ (s : State) (x : TmRegs) (k : Nat), s.regs = .tm x → readByte s.mem (regRead x.dp) = .ok 0 →
    BracketMatch s.mem .forward (regRead x.pc) k →
      exec .jzf s = .next { s with regs := .tm { x with pc := x.pc + BitVec.ofNat 32 k + 1 } }

/-- `42_tape_machine.md` `JNZB` taken: to the instruction after the matching open bracket, modulo `2^32`. The landing point
is the spec's decision D10 (log entry 8). -/
def Obligations.JnzbJumpsBackAfterItsMatch : Prop :=
  ∀ (s : State) (x : TmRegs) (b : Byte) (k : Nat), s.regs = .tm x → readByte s.mem (regRead x.dp) = .ok b → b ≠ 0 →
    BracketMatch s.mem .backward (regRead x.pc) k →
      exec .jnzb s = .next { s with regs := .tm { x with pc := x.pc - BitVec.ofNat 32 k + 1 } }

/-- `42_tape_machine.md` jump faults: an unmapped `DP` first; then, only when the jump is taken, the scan that leaves mapped
memory; only the status changes. The spec's decisions D3, D11, D12. -/
def Obligations.JumpFaults : Prop :=
  ∀ (s : State) (x : TmRegs), s.regs = .tm x →
    (∀ f, route s.mem (regRead x.dp) = .error f →
      exec .jzf s = .next { s with status := .faulted (.unmappedAddress (regRead x.dp)) } ∧
      exec .jnzb s = .next { s with status := .faulted (.unmappedAddress (regRead x.dp)) }) ∧
    (∀ k, readByte s.mem (regRead x.dp) = .ok 0 → BracketRunsOff s.mem .forward (regRead x.pc) k →
      exec .jzf s = .next { s with status := .faulted (.unmappedAddress (regRead x.pc + k)) }) ∧
    (∀ k b, readByte s.mem (regRead x.dp) = .ok b → b ≠ 0 → BracketRunsOff s.mem .backward (regRead x.pc) k →
      exec .jnzb s = .next { s with status := .faulted (.unmappedAddress (regRead x.pc - k)) })

/-- `92_eei_decisions.md` D11: in a well-bracketed code region a bracket instruction whose data byte is mapped completes
without a fault, taken or not, and changes nothing but `pc`. -/
def Obligations.WellBracketedJumpsComplete : Prop :=
  ∀ (s : State) (x : TmRegs) (lo hi : Int) (b : Byte), s.regs = .tm x → WellBracketed s.mem lo hi →
    lo ≤ regRead x.pc → regRead x.pc < hi → readByte s.mem (regRead x.dp) = .ok b →
      (readByte s.mem (regRead x.pc) = .ok openBracket →
        ∃ pc, exec .jzf s = .next { s with regs := .tm { x with pc := pc } }) ∧
      (readByte s.mem (regRead x.pc) = .ok closeBracket →
        ∃ pc, exec .jnzb s = .next { s with regs := .tm { x with pc := pc } })

/-- `42_tape_machine.md` `OUT`: the byte at `x[DP]` of any device, a code store included, is appended as it is; an unmapped
`DP` faults and nothing is appended. The sink is the spec's decision D26. -/
def Obligations.OutAppendsTheByteAtDp : Prop :=
  ∀ (s : State) (x : TmRegs), s.regs = .tm x →
    (∀ d, route s.mem (regRead x.dp) = .ok d →
      exec .out s = .next { s with
        regs := .tm { x with pc := x.pc + 1 }
        out := s.out ++ [Memory.readCell d.bytes (d.offset (regRead x.dp))] }) ∧
    (∀ f, route s.mem (regRead x.dp) = .error f →
      exec .out s = .next { s with status := .faulted (.unmappedAddress (regRead x.dp)) })

/-- `42_tape_machine.md` `HALT`: only the status changes, `pc` stays at the instruction. The spec's decision D14. -/
def Obligations.HaltChangesOnlyStatus : Prop :=
  ∀ (s : State) (x : TmRegs), s.regs = .tm x → exec .halt s = .next { s with status := .halted }

/-! ### The load/store-machine instruction -/

/-- `43_toy_loadstore.md` `INC Rn`: `Rn` plus one modulo `2^32`, `pc` plus four modulo `2^32`; the other general registers,
`SP`, `LR`, memory, output and status stay; no fault, for every index. That the instruction writes `pc` is the spec's
decision D5. -/
def Obligations.IncAddsOneToRn : Prop :=
  ∀ (s : State) (x : LsRegs) (n : RegIndex), s.regs = .ls x →
    ∃ y, exec (.inc n) s = .next { s with regs := .ls y } ∧ y.getR n = x.getR n + 1 ∧
      (∀ m, m ≠ n → y.getR m = x.getR m) ∧ y.sp = x.sp ∧ y.lr = x.lr ∧ y.pc = x.pc + 4

/-- `43_toy_loadstore.md` on `SP`, `LR` and `PC`: no step of the load/store machine writes `SP` or `LR`; none reads them
(with other values in them it does the same); a step that completes moves `pc` by four. That a step that faults leaves
every register as it was, with the fault in the status, is the spec's decisions D2 and D3 (log entry 6). -/
def Obligations.StackAndLinkNeitherReadNorWritten : Prop :=
  ∀ (s t : State) (x : LsRegs), s.regs = .ls x → step s = .next t →
    ∃ y, t.regs = .ls y ∧ y.sp = x.sp ∧ y.lr = x.lr ∧
      ((t.status = .running ∧ y.pc = x.pc + 4) ∨ ((∃ f, t.status = .faulted f) ∧ y = x)) ∧
      ∀ u v : Word, step { s with regs := .ls { x with sp := u, lr := v } } =
        .next { t with regs := .ls { y with sp := u, lr := v } }

/-- `10_state.md` program counter: on the load/store machine a `pc` that is a multiple of 4 stays one. An inference of the
spec (its rule 28). -/
def Obligations.LoadStorePcStaysAligned : Prop :=
  ∀ s t : State, s.arch = .ls → s.pc.toNat % 4 = 0 → step s = .next t → t.arch = .ls ∧ t.pc.toNat % 4 = 0

/-- An instruction of the other architecture has no meaning on a core and is refused by name; no decoded instruction is
one. The model's choice (log entry 10). -/
def Obligations.ForeignInstructionsRefused : Prop :=
  ∀ (i : Instr) (s : State),
    (i.wellFormed s.arch = false → exec i s = .refused (.foreignInstruction s.arch)) ∧
    (fetchDecode s = .ok i → i.wellFormed s.arch = true)
end

