-- ==== Sys2Proof/Laws/State.lean ====
section
/-! SUPPORT. One lemma per field per update, all true by unfolding, for `simp`. -/

namespace Sys2Proof.Machine

open Sys2Proof

@[simp] theorem takeFault_regs (f : FaultInfo) (s : State) : (takeFault f s).regs = s.regs := rfl
@[simp] theorem takeFault_mem (f : FaultInfo) (s : State) : (takeFault f s).mem = s.mem := rfl
@[simp] theorem takeFault_out (f : FaultInfo) (s : State) : (takeFault f s).out = s.out := rfl
@[simp] theorem takeFault_status (f : FaultInfo) (s : State) : (takeFault f s).status = .faulted f := rfl
@[simp] theorem takeFault_pc (f : FaultInfo) (s : State) : (takeFault f s).pc = s.pc := rfl
@[simp] theorem takeFault_arch (f : FaultInfo) (s : State) : (takeFault f s).arch = s.arch := rfl

@[simp] theorem finish_ok (s t : State) : finish s (.ok t) = t := rfl
@[simp] theorem finish_error (s : State) (f : FaultInfo) : finish s (.error f) = takeFault f s := rfl

@[simp] theorem coreReset_regs (a : Arch) (v : Word) (s : State) : (coreReset a v s).regs = RegFile.reset v a := rfl
@[simp] theorem coreReset_mem (a : Arch) (v : Word) (s : State) : (coreReset a v s).mem = s.mem := rfl
@[simp] theorem coreReset_out (a : Arch) (v : Word) (s : State) : (coreReset a v s).out = [] := rfl
@[simp] theorem coreReset_status (a : Arch) (v : Word) (s : State) : (coreReset a v s).status = .running := rfl

@[simp] theorem arch_tm (x : TmRegs) : (RegFile.tm x).arch = .tm := rfl
@[simp] theorem arch_ls (x : LsRegs) : (RegFile.ls x).arch = .ls := rfl
@[simp] theorem pc_tm (x : TmRegs) : (RegFile.tm x).pc = x.pc := rfl
@[simp] theorem pc_ls (x : LsRegs) : (RegFile.ls x).pc = x.pc := rfl
@[simp] theorem setPc_pc (x : RegFile) (v : Word) : (x.setPc v).pc = v := by cases x <;> rfl
@[simp] theorem setPc_arch (x : RegFile) (v : Word) : (x.setPc v).arch = x.arch := by cases x <;> rfl

@[simp] theorem tmAdvance_dp (x : TmRegs) : x.advance.dp = x.dp := rfl
@[simp] theorem tmAdvance_pc (x : TmRegs) : x.advance.pc = regAdd x.pc 1 := rfl
@[simp] theorem lsAdvance_r (x : LsRegs) : x.advance.r = x.r := rfl
@[simp] theorem lsAdvance_sp (x : LsRegs) : x.advance.sp = x.sp := rfl
@[simp] theorem lsAdvance_lr (x : LsRegs) : x.advance.lr = x.lr := rfl
@[simp] theorem lsAdvance_pc (x : LsRegs) : x.advance.pc = regAdd x.pc 4 := rfl
@[simp] theorem lsAdvance_getR (x : LsRegs) (n : RegIndex) : x.advance.getR n = x.getR n := rfl

@[simp] theorem setR_sp (x : LsRegs) (n : RegIndex) (v : Word) : (x.setR n v).sp = x.sp := rfl
@[simp] theorem setR_lr (x : LsRegs) (n : RegIndex) (v : Word) : (x.setR n v).lr = x.lr := rfl
@[simp] theorem setR_pc (x : LsRegs) (n : RegIndex) (v : Word) : (x.setR n v).pc = x.pc := rfl

@[simp] theorem getR_setR_same (x : LsRegs) (n : RegIndex) (v : Word) : (x.setR n v).getR n = v := by
  simp [LsRegs.getR, LsRegs.setR]

@[simp] theorem getR_setR_ne (x : LsRegs) (m n : RegIndex) (v : Word) (h : m ≠ n) :
    (x.setR n v).getR m = x.getR m := by
  have hne : n.toNat ≠ m.toNat := fun e => h (BitVec.eq_of_toNat_eq e.symm)
  simp [LsRegs.getR, LsRegs.setR, hne]

/-- The reset state is the boot of `TM-REF` with an empty image (`70_reset_and_hazards.md` R262, R270). -/
theorem boot_tmRef_empty : boot (cfgTmRef []) = .ok State.reset := rfl

@[simp] theorem reset_status : State.reset.status = .running := rfl
@[simp] theorem reset_out : State.reset.out = [] := rfl
@[simp] theorem reset_pc : State.reset.pc = 0 := rfl

@[simp] theorem geometry_withBytes (d : Device) (off : Nat) (bs : List Byte) :
    (d.withBytes off bs).geometry = d.geometry := rfl

end Sys2Proof.Machine
end

