-- ==== Sys2Proof/Laws/Memory.lean ====
section
/-! SUPPORT. Backing storage: read after write, frames, and the canonical form every operation keeps. -/

namespace Sys2Proof.Machine

open Sys2Proof

theorem lookup_eraseCell_same (m : Memory) (i : Nat) : (Memory.eraseCell m i).lookup i = none := by
  rw [List.lookup_eq_none_iff]
  intro c hc
  have h : c.1 ≠ i := by simpa using (List.mem_filter.mp hc).2
  simpa using fun e => h e.symm

theorem lookup_eraseCell_ne (m : Memory) (i j : Nat) (h : j ≠ i) :
    (Memory.eraseCell m i).lookup j = m.lookup j := by
  induction m with
  | nil => rfl
  | cons c m ih =>
    obtain ⟨k, b⟩ := c
    simp only [Memory.eraseCell] at ih ⊢
    by_cases hk : k = i
    · subst hk
      have : (j == k) = false := by simpa using h
      simp [List.lookup_cons, this, ih]
    · by_cases hj : j = k
      · simp [hk, hj]
      · have : (j == k) = false := by simpa using hj
        simp [hk, List.lookup_cons, this, ih]

theorem lookup_insertCell_same (m : Memory) (i : Nat) (b : Byte) (h : m.lookup i = none) :
    (Memory.insertCell m i b).lookup i = some b := by
  induction m with
  | nil => simp [Memory.insertCell]
  | cons c m ih =>
    obtain ⟨k, c⟩ := c
    simp only [Memory.insertCell]
    by_cases hik : i = k
    · simp [hik] at h
    · have hb : (i == k) = false := by simpa using hik
      simp only [List.lookup_cons, hb] at h
      split
      · simp
      · simp [List.lookup_cons, hb, ih h]

theorem lookup_insertCell_ne (m : Memory) (i j : Nat) (b : Byte) (h : j ≠ i) :
    (Memory.insertCell m i b).lookup j = m.lookup j := by
  have hb : (j == i) = false := by simpa using h
  induction m with
  | nil => simp [Memory.insertCell, List.lookup_cons, hb]
  | cons c m ih =>
    obtain ⟨k, c⟩ := c
    simp only [Memory.insertCell]
    split
    · simp [List.lookup_cons, hb]
    · simp [List.lookup_cons, ih]

@[simp] theorem readCell_nil (i : Nat) : Memory.readCell [] i = 0 := rfl

@[simp] theorem readCell_writeCell_same (m : Memory) (i : Nat) (b : Byte) :
    Memory.readCell (Memory.writeCell m i b) i = b := by
  unfold Memory.readCell Memory.writeCell
  split_ifs with h
  · simp [lookup_eraseCell_same, h]
  · simp [lookup_insertCell_same _ _ _ (lookup_eraseCell_same m i)]

@[simp] theorem readCell_writeCell_ne (m : Memory) (i j : Nat) (b : Byte) (h : j ≠ i) :
    Memory.readCell (Memory.writeCell m i b) j = Memory.readCell m j := by
  unfold Memory.readCell Memory.writeCell
  split_ifs
  · rw [lookup_eraseCell_ne _ _ _ h]
  · rw [lookup_insertCell_ne _ _ _ _ h, lookup_eraseCell_ne _ _ _ h]

/-- What a run of bytes written at `off` leaves at offset `i`: the byte of the run there, else what was there. -/
theorem readCell_writeCells (m : Memory) (off : Nat) (bs : List Byte) (i : Nat) :
    Memory.readCell (Memory.writeCells m off bs) i =
      if h : off ≤ i ∧ i - off < bs.length then bs[i - off]'h.2 else Memory.readCell m i := by
  induction bs generalizing m off with
  | nil => simp [Memory.writeCells]
  | cons b bs ih =>
    rw [Memory.writeCells, ih]
    by_cases hi : i = off
    · subst hi; simp
    · by_cases hin : off + 1 ≤ i ∧ i - (off + 1) < bs.length
      · have h2 : off ≤ i ∧ i - off < (b :: bs).length := ⟨by omega, by simp; omega⟩
        have h3 : i - off = (i - (off + 1)) + 1 := by omega
        rw [dif_pos hin, dif_pos h2]
        simp [h3]
      · have h2 : ¬ (off ≤ i ∧ i - off < (b :: bs).length) := by
          intro h; apply hin; simp at h; omega
        rw [dif_neg hin, dif_neg h2, readCell_writeCell_ne _ _ _ _ hi]

@[simp] theorem readCells_length (m : Memory) (off n : Nat) : (Memory.readCells m off n).length = n := by
  simp [Memory.readCells]

theorem readCells_getElem (m : Memory) (off n j : Nat) (h : j < (Memory.readCells m off n).length) :
    (Memory.readCells m off n)[j] = Memory.readCell m (off + j) := by
  simp [Memory.readCells]

theorem readCells_writeCells_same (m : Memory) (off : Nat) (bs : List Byte) :
    Memory.readCells (Memory.writeCells m off bs) off bs.length = bs := by
  apply List.ext_getElem
  · simp
  · intro j h1 h2
    rw [readCells_getElem, readCell_writeCells, dif_pos ⟨by omega, by omega⟩]
    simp

/-! ### The canonical form -/

theorem mem_eraseCell {m : Memory} {i : Nat} {c : Host.Cell} : c ∈ Memory.eraseCell m i ↔ c ∈ m ∧ c.1 ≠ i := by
  simp [Memory.eraseCell]

theorem mem_insertCell {m : Memory} {i : Nat} {b : Byte} {c : Host.Cell} :
    c ∈ Memory.insertCell m i b ↔ c = (i, b) ∨ c ∈ m := by
  induction m with
  | nil => simp [Memory.insertCell]
  | cons d m ih =>
    simp only [Memory.insertCell]
    split
    · simp
    · simp [ih]; tauto

theorem mem_writeCell {m : Memory} {i : Nat} {b : Byte} {c : Host.Cell} (h : c ∈ Memory.writeCell m i b) :
    c = (i, b) ∨ c ∈ m := by
  unfold Memory.writeCell at h
  split_ifs at h
  · exact .inr (mem_eraseCell.mp h).1
  · rcases mem_insertCell.mp h with h | h
    · exact .inl h
    · exact .inr (mem_eraseCell.mp h).1

theorem insertCell_rising {m : Memory} {i : Nat} {b : Byte} (hm : m.Pairwise (fun c d => c.1 < d.1))
    (hi : ∀ c ∈ m, c.1 ≠ i) : (Memory.insertCell m i b).Pairwise (fun c d => c.1 < d.1) := by
  induction m with
  | nil => simp [Memory.insertCell]
  | cons c m ih =>
    rw [List.pairwise_cons] at hm
    simp only [Memory.insertCell]
    split
    · rename_i hlt
      refine List.pairwise_cons.mpr ⟨?_, List.pairwise_cons.mpr hm⟩
      intro d hd
      rcases List.mem_cons.mp hd with rfl | hd
      · exact hlt
      · exact Nat.lt_trans hlt (hm.1 d hd)
    · rename_i hge
      refine List.pairwise_cons.mpr ⟨?_, ih hm.2 (fun d hd => hi d (List.mem_cons_of_mem _ hd))⟩
      intro d hd
      rcases mem_insertCell.mp hd with rfl | hd
      · have := hi c List.mem_cons_self
        simp only at this ⊢; omega
      · exact hm.1 d hd

/-- Writing a byte keeps the canonical form. -/
theorem writeCell_wf {m : Memory} (i : Nat) (b : Byte) (h : Memory.wf m) : Memory.wf (Memory.writeCell m i b) := by
  have he : (Memory.eraseCell m i).Pairwise (fun c d => c.1 < d.1) := h.1.filter _
  unfold Memory.writeCell
  split_ifs with hb
  · exact ⟨he, fun c hc => h.2 c (mem_eraseCell.mp hc).1⟩
  · refine ⟨insertCell_rising he fun c hc => (mem_eraseCell.mp hc).2, fun c hc => ?_⟩
    rcases mem_insertCell.mp hc with rfl | hc
    · exact hb
    · exact h.2 c (mem_eraseCell.mp hc).1

/-- Writing a run of bytes keeps the canonical form. -/
theorem writeCells_wf {m : Memory} (off : Nat) (bs : List Byte) (h : Memory.wf m) :
    Memory.wf (Memory.writeCells m off bs) := by
  induction bs generalizing m off with
  | nil => exact h
  | cons b bs ih => exact ih _ (writeCell_wf off b h)

/-- Writing a run inside the storage lists no offset past its end. -/
theorem writeCells_bound {m : Memory} {off size : Nat} {bs : List Byte} (h : ∀ c ∈ m, c.1 < size)
    (hin : off + bs.length ≤ size) : ∀ c ∈ Memory.writeCells m off bs, c.1 < size := by
  induction bs generalizing m off with
  | nil => exact h
  | cons b bs ih =>
    simp only [List.length_cons] at hin
    refine ih (fun c hc => ?_) (by omega)
    rcases mem_writeCell hc with rfl | hc
    · simp only; omega
    · exact h c hc

/-- The reset memory is in canonical form. -/
theorem reset_memory_wf : ∀ d ∈ State.reset.mem, Memory.wf d.bytes := by decide

/-! ### Bytes of a value -/

@[simp] theorem leBytes_length {n : Nat} (v : BitVec n) (c : Nat) : (leBytes v c).length = c := by simp [leBytes]

theorem leBytes_getElem {n : Nat} (v : BitVec n) (c j : Nat) (h : j < (leBytes v c).length) :
    (leBytes v c)[j] = byteAt v j := by simp [leBytes]

/-- Little-endian bytes of a value of an access width read back as the value (R63). -/
theorem ofNat_leNat_leBytes (w : Width) (v : BitVec w.bits) :
    BitVec.ofNat w.bits (leNat (leBytes v w.bytes)) = v := by
  apply BitVec.eq_of_toNat_eq
  have hv := v.isLt
  cases w <;>
    simp only [Width.bits, Width.bytes] at v hv ⊢ <;>
    simp [leBytes, byteAt, leNat, List.range, List.range.loop, BitVec.extractLsb'_toNat, Nat.shiftRight_eq_div_pow] <;>
    omega

end Sys2Proof.Machine
end

