-- ==== Sys2Proof/Laws/Ops.lean ====
section
/-! SUPPORT. What each shared operation can do, said once: routing, devices, memory access, the two frames of a meaning,
the meanings and the step. Proofs about the machine cite these instead of unfolding it. -/

namespace Sys2Proof.Machine

open Sys2Proof

/-! ### Register operations with a literal operand -/

theorem regOfInt_natCast (n : Nat) : regOfInt (n : Int) = BitVec.ofNat 32 n := by
  simp [regOfInt]

theorem regAdd_natCast (a : Word) (n : Nat) : regAdd a (n : Int) = a + BitVec.ofNat 32 n := by
  rw [regAdd, regRead, ← Int.natCast_add, regOfInt_natCast]
  apply BitVec.eq_of_toNat_eq
  simp

@[simp] theorem regAdd_one (a : Word) : regAdd a 1 = a + 1 := regAdd_natCast a 1

@[simp] theorem regAdd_four (a : Word) : regAdd a 4 = a + 4 := regAdd_natCast a 4

theorem regSub_natCast (a : Word) (n : Nat) : regSub a (n : Int) = a - BitVec.ofNat 32 n := by
  apply BitVec.eq_of_toNat_eq
  have ha := a.isLt
  simp only [regSub, regRead, regOfInt, BitVec.toNat_ofInt, BitVec.toNat_sub, BitVec.toNat_ofNat]
  omega

@[simp] theorem regSub_one (a : Word) : regSub a 1 = a - 1 := regSub_natCast a 1

theorem regRead_range (a : Word) : 0 ≤ regRead a ∧ regRead a < 0x100000000 := by
  have := a.isLt
  unfold regRead
  omega

/-! ### Routing -/

/-- A device is found exactly when the address is in the address space and it is the first to hold it. -/
theorem route_ok_iff {mem : List Device} {addr : Int} {d : Device} :
    route mem addr = .ok d ↔
      (0 ≤ addr ∧ addr < 0x100000000) ∧ mem.find? (fun e => e.contains addr) = some d := by
  have hr : (0 ≤ addr ∧ addr.toNat < 0x100000000) ↔ (0 ≤ addr ∧ addr < 0x100000000) := by omega
  unfold route
  rw [← hr]
  split_ifs with h
  · simp only [h, true_and]
    cases mem.find? (fun e => e.contains addr) <;> simp
  · exact ⟨fun e => (nomatch e), fun e => absurd e.1 h⟩

theorem route_contains {mem : List Device} {addr : Int} {d : Device} (h : route mem addr = .ok d) :
    d.contains addr = true := by
  simpa using List.find?_some (route_ok_iff.mp h).2

theorem route_mem {mem : List Device} {addr : Int} {d : Device} (h : route mem addr = .ok d) : d ∈ mem :=
  List.mem_of_find?_eq_some (route_ok_iff.mp h).2

theorem route_range {mem : List Device} {addr : Int} {d : Device} (h : route mem addr = .ok d) :
    0 ≤ addr ∧ addr < 0x100000000 := (route_ok_iff.mp h).1

/-- Routing fails in one way only. -/
theorem route_error {mem : List Device} {addr : Int} {f : FaultInfo} (h : route mem addr = .error f) :
    f = .unmappedAddress addr := by
  unfold route at h
  split_ifs at h
  · split at h <;> simp_all
  · simp_all

theorem contains_iff {d : Device} {addr : Int} :
    d.contains addr = true ↔ (d.base : Int) ≤ addr ∧ addr < (d.base : Int) + (d.size : Int) := by
  simp [Device.contains]

/-- A routed byte is inside the storage (R54). -/
theorem offset_lt_of_contains {d : Device} {addr : Int} (h : d.contains addr = true) : d.offset addr < d.size := by
  rw [contains_iff] at h
  unfold Device.offset
  omega

theorem contains_congr {d e : Device} (h : d.geometry = e.geometry) (addr : Int) :
    d.contains addr = e.contains addr := by
  simp only [Device.geometry, Prod.mk.injEq] at h
  simp [Device.contains, h.2.1, h.2.2]

theorem offset_congr {d e : Device} (h : d.geometry = e.geometry) (addr : Int) : d.offset addr = e.offset addr := by
  simp only [Device.geometry, Prod.mk.injEq] at h
  simp [Device.offset, h.2.1]

/-! ### Replacing the routed device -/

theorem replaceRouted_geometry {mem : List Device} {addr : Int} {d d' : Device}
    (hd : mem.find? (fun e => e.contains addr) = some d) (hg : d'.geometry = d.geometry) :
    memGeometry (replaceRouted addr d' mem) = memGeometry mem := by
  induction mem with
  | nil => rfl
  | cons e mem ih =>
    simp only [replaceRouted]
    by_cases he : e.contains addr
    · simp_all [memGeometry]
    · simp only [List.find?_cons, he] at hd
      simpa [memGeometry, he] using ih hd

theorem mem_replaceRouted {mem : List Device} {addr : Int} {d' e : Device} (h : e ∈ replaceRouted addr d' mem) :
    e = d' ∨ e ∈ mem := by
  induction mem with
  | nil => simp [replaceRouted] at h
  | cons c mem ih =>
    simp only [replaceRouted] at h
    split_ifs at h
    · rcases List.mem_cons.mp h with h | h
      · exact .inl h
      · exact .inr (List.mem_cons_of_mem _ h)
    · rcases List.mem_cons.mp h with h | h
      · exact .inr (h ▸ List.mem_cons_self)
      · rcases ih h with h | h
        · exact .inl h
        · exact .inr (List.mem_cons_of_mem _ h)

/-- After the replacement every address is routed as before, and where it was routed to the replaced device it is
routed to the new one. -/
theorem find_replaceRouted {mem : List Device} {addr : Int} {d d' : Device}
    (hd : mem.find? (fun e => e.contains addr) = some d) (hg : d'.geometry = d.geometry) (a : Int) :
    (replaceRouted addr d' mem).find? (fun e => e.contains a) = mem.find? (fun e => e.contains a) ∨
      (mem.find? (fun e => e.contains a) = some d ∧
        (replaceRouted addr d' mem).find? (fun e => e.contains a) = some d') := by
  induction mem with
  | nil => simp at hd
  | cons e mem ih =>
    simp only [replaceRouted]
    by_cases he : e.contains addr
    · simp only [List.find?_cons, he, Option.some.injEq] at hd
      subst hd
      simp only [he, if_true, List.find?_cons, contains_congr hg a]
      cases e.contains a <;> simp
    · simp only [List.find?_cons, he] at hd
      simp only [he, Bool.false_eq_true, if_false, List.find?_cons]
      cases e.contains a
      · simpa using ih hd
      · simp

theorem find_replaceRouted_same {mem : List Device} {addr : Int} {d d' : Device}
    (hd : mem.find? (fun e => e.contains addr) = some d) (hg : d'.geometry = d.geometry) :
    (replaceRouted addr d' mem).find? (fun e => e.contains addr) = some d' := by
  induction mem with
  | nil => simp at hd
  | cons e mem ih =>
    simp only [replaceRouted]
    by_cases he : e.contains addr
    · simp only [List.find?_cons, he, Option.some.injEq] at hd
      subst hd
      simp [he, contains_congr hg addr]
    · simp only [List.find?_cons, he] at hd
      simpa [he] using ih hd

theorem replaceRouted_codeStores {mem : List Device} {addr : Int} {d d' : Device}
    (hd : mem.find? (fun e => e.contains addr) = some d) (hk : d.kind ≠ .rom) (hk' : d'.kind ≠ .rom) :
    codeStores (replaceRouted addr d' mem) = codeStores mem := by
  induction mem with
  | nil => rfl
  | cons e mem ih =>
    simp only [replaceRouted]
    by_cases he : e.contains addr
    · simp only [List.find?_cons, he, Option.some.injEq] at hd
      subst hd
      simp [he, codeStores, hk, hk']
    · simp only [List.find?_cons, he] at hd
      have := ih hd
      simp only [codeStores] at this ⊢
      simp [he, List.filter_cons, this]

/-! ### Device and memory access -/

theorem devLoad_ok_iff {d : Device} {addr : Int} {w : Width} {v : BitVec w.bits} :
    devLoad d addr w = .ok v ↔
      d.offset addr + w.bytes ≤ d.size ∧
        v = BitVec.ofNat w.bits (leNat (Memory.readCells d.bytes (d.offset addr) w.bytes)) := by
  unfold devLoad
  split_ifs with h
  · simp; omega
  · simp only [Except.ok.injEq]
    constructor
    · rintro rfl; exact ⟨by omega, rfl⟩
    · rintro ⟨-, rfl⟩; rfl

/-- A store that succeeds: the device is writable, the bytes are inside, and the storage holds them. -/
theorem devStore_ok {d d' : Device} {addr : Int} {w : Width} {v : BitVec w.bits} (h : devStore d addr w v = .ok d') :
    d.kind ≠ .rom ∧ d.offset addr + w.bytes ≤ d.size ∧
      d' = { d with bytes := Memory.writeCells d.bytes (d.offset addr) (leBytes v w.bytes) } := by
  unfold devStore at h
  split_ifs at h with h1 h2
  simp only [Except.ok.injEq] at h
  exact ⟨h1, by omega, h.symm⟩

theorem devStore_geometry {d d' : Device} {addr : Int} {w : Width} {v : BitVec w.bits}
    (h : devStore d addr w v = .ok d') : d'.geometry = d.geometry := by
  obtain ⟨-, -, rfl⟩ := devStore_ok h; rfl

/-- A load that succeeds was routed to a device that holds all its bytes. -/
theorem memRead_ok {mem : List Device} {addr : Int} {w : Width} {v : BitVec w.bits} (h : memRead mem addr w = .ok v) :
    ∃ d, route mem addr = .ok d ∧ devLoad d addr w = .ok v := by
  unfold memRead at h
  split at h
  · simp at h
  · exact ⟨_, by assumption, h⟩

/-- A store that succeeds replaces the routed device by the stored one and nothing else. -/
theorem memWrite_ok {mem mem' : List Device} {addr : Int} {w : Width} {v : BitVec w.bits}
    (h : memWrite mem addr w v = .ok mem') :
    ∃ d d', route mem addr = .ok d ∧ devStore d addr w v = .ok d' ∧ mem' = replaceRouted addr d' mem := by
  unfold memWrite at h
  split at h
  · simp at h
  · rename_i d hd
    split at h
    · simp at h
    · rename_i d' hd'
      exact ⟨d, d', hd, hd', by simpa using h.symm⟩

/-- A byte load gives the byte of the routed device. -/
theorem readByte_of_route {mem : List Device} {addr : Int} {d : Device} (h : route mem addr = .ok d) :
    readByte mem addr = .ok (Memory.readCell d.bytes (d.offset addr)) := by
  have hlt := offset_lt_of_contains (route_contains h)
  simp only [readByte, memRead, h]
  rw [devLoad_ok_iff]
  refine ⟨by simp only [Width.bytes]; omega, ?_⟩
  apply BitVec.eq_of_toNat_eq
  have := (Memory.readCell d.bytes (d.offset addr)).isLt
  simp [Memory.readCells, leNat, List.range, List.range.loop]

/-- A byte load fails only by finding no device (R169). -/
theorem readByte_error {mem : List Device} {addr : Int} {f : FaultInfo} (h : readByte mem addr = .error f) :
    f = .unmappedAddress addr ∧ route mem addr = .error (.unmappedAddress addr) := by
  cases hr : route mem addr with
  | ok d => rw [readByte_of_route hr] at h; simp at h
  | error g =>
    have hg := route_error hr
    simp only [readByte, memRead, hr, Except.error.injEq] at h
    exact ⟨by rw [← h, hg], by rw [hg]⟩

/-- A byte load outside the address space faults. -/
theorem readByte_outside {mem : List Device} {addr : Int} (h : ¬ (0 ≤ addr ∧ addr < 0x100000000)) :
    readByte mem addr = .error (.unmappedAddress addr) := by
  have hr : ¬ (0 ≤ addr ∧ addr.toNat < 0x100000000) := by omega
  simp only [readByte, memRead, route, if_neg hr]

/-! ### The frames of the meanings -/

theorem onTape_next {s t : State} {body : TmRegs → Except FaultInfo State} (h : onTape s body = .next t) :
    ∃ x, s.regs = .tm x ∧ t = finish s (body x) := by
  unfold onTape at h
  split at h
  · exact ⟨_, by assumption, by simpa using h.symm⟩
  · simp at h

theorem onLoadStore_next {s t : State} {body : LsRegs → Except FaultInfo State} (h : onLoadStore s body = .next t) :
    ∃ x, s.regs = .ls x ∧ t = finish s (body x) := by
  unfold onLoadStore at h
  split at h
  · exact ⟨_, by assumption, by simpa using h.symm⟩
  · simp at h

/-- What the body of a meaning can leave: the fault taken, or its state. -/
theorem finish_cases {s t : State} {r : Except FaultInfo State} (h : t = finish s r) :
    (∃ f, r = .error f ∧ t = takeFault f s) ∨ r = .ok t := by
  cases r with
  | ok u => exact .inr (by simpa [finish] using h.symm)
  | error f => exact .inl ⟨f, rfl, h⟩

/-- What `DINC` and `DDEC` do when they complete. -/
theorem modifyDataByte_ok {s t : State} {x : TmRegs} {g : Byte → Byte} (h : modifyDataByte s x g = .ok t) :
    ∃ b mem, readByte s.mem (regRead x.dp) = .ok b ∧ writeByte s.mem (regRead x.dp) (g b) = .ok mem ∧
      t = { s with regs := .tm x.advance, mem := mem } := by
  unfold modifyDataByte at h
  cases hr : readByte s.mem (regRead x.dp) with
  | error e => simp [hr] at h
  | ok b =>
    rw [hr] at h
    cases hw : writeByte s.mem (regRead x.dp) (g b) with
    | error e => simp [hw] at h
    | ok mem => exact ⟨b, mem, rfl, hw, by simpa [hw] using h.symm⟩

/-! ### The step -/

/-- What a step that answers a state did: it took the fault of fetch or decode, or executed an instruction. -/
theorem step_next {s t : State} (h : step s = .next t) :
    s.status = .running ∧
      ((∃ f, fetchDecode s = .error f ∧ t = takeFault f s) ∨ ∃ i, fetchDecode s = .ok i ∧ exec i s = .next t) := by
  unfold step at h
  split at h
  · simp at h
  · simp at h
  · refine ⟨by assumption, ?_⟩
    split at h
    · exact .inl ⟨_, by assumption, by simpa using h.symm⟩
    · exact .inr ⟨_, by assumption, h⟩

/-- What fetch and decode did when they gave an instruction. -/
theorem fetchDecode_ok {s : State} {i : Instr} (h : fetchDecode s = .ok i) :
    ∃ raw, fetch s = .ok raw ∧ decode raw = .ok i := by
  unfold fetchDecode at h
  split at h
  · simp at h
  · split at h
    · simp at h
    · exact ⟨_, by assumption, by simp_all⟩

/-- The ways an instruction that answers a state can end: a fault taken, a register-only effect, a store of one byte at
`x[DP]`, an output byte, the halt, or the increment of `Rn`. -/
theorem exec_next {i : Instr} {s t : State} (h : exec i s = .next t) :
    (∃ f, t = takeFault f s) ∨
    (∃ x y, s.regs = .tm x ∧ t = { s with regs := .tm y } ∧
      (i = .pinc ∨ i = .pdec ∨ i = .jzf ∨ i = .jnzb)) ∨
    (∃ x b mem, s.regs = .tm x ∧ writeByte s.mem (regRead x.dp) b = .ok mem ∧
      t = { s with regs := .tm x.advance, mem := mem } ∧ (i = .dinc ∨ i = .ddec)) ∨
    (∃ x b, s.regs = .tm x ∧ readByte s.mem (regRead x.dp) = .ok b ∧
      t = { s with regs := .tm x.advance, out := s.out ++ [b] } ∧ i = .out) ∨
    (t = { s with status := .halted } ∧ s.arch = .tm ∧ i = .halt) ∨
    (∃ x n, s.regs = .ls x ∧
      t = { s with regs := .ls (x.setR n (regAdd (x.getR n) 1)).advance } ∧ i = .inc n) := by
  have tape : ∀ body, onTape s body = .next t → ∃ x, s.regs = .tm x ∧
      ((∃ f, body x = .error f ∧ t = takeFault f s) ∨ body x = .ok t) := fun body hb => by
    obtain ⟨x, hx, ht⟩ := onTape_next hb
    exact ⟨x, hx, finish_cases ht⟩
  cases i with
  | pinc =>
    obtain ⟨x, hx, ⟨f, -, hf⟩ | hb⟩ := tape _ h
    · exact .inl ⟨f, hf⟩
    · exact .inr (.inl ⟨x, _, hx, by simpa using hb.symm, .inl rfl⟩)
  | pdec =>
    obtain ⟨x, hx, ⟨f, -, hf⟩ | hb⟩ := tape _ h
    · exact .inl ⟨f, hf⟩
    · exact .inr (.inl ⟨x, _, hx, by simpa using hb.symm, .inr (.inl rfl)⟩)
  | dinc =>
    obtain ⟨x, hx, ⟨f, -, hf⟩ | hb⟩ := tape _ h
    · exact .inl ⟨f, hf⟩
    · obtain ⟨b, mem, -, hw, ht⟩ := modifyDataByte_ok hb
      exact .inr (.inr (.inl ⟨x, _, mem, hx, hw, ht, .inl rfl⟩))
  | ddec =>
    obtain ⟨x, hx, ⟨f, -, hf⟩ | hb⟩ := tape _ h
    · exact .inl ⟨f, hf⟩
    · obtain ⟨b, mem, -, hw, ht⟩ := modifyDataByte_ok hb
      exact .inr (.inr (.inl ⟨x, _, mem, hx, hw, ht, .inr rfl⟩))
  | jzf =>
    obtain ⟨x, hx, ⟨f, -, hf⟩ | hb⟩ := tape _ h
    · exact .inl ⟨f, hf⟩
    · split at hb
      · simp at hb
      · split_ifs at hb
        · split at hb
          · simp at hb
          · exact .inr (.inl ⟨x, _, hx, by simpa using hb.symm, by simp⟩)
        · exact .inr (.inl ⟨x, _, hx, by simpa using hb.symm, by simp⟩)
  | jnzb =>
    obtain ⟨x, hx, ⟨f, -, hf⟩ | hb⟩ := tape _ h
    · exact .inl ⟨f, hf⟩
    · split at hb
      · simp at hb
      · split_ifs at hb
        · split at hb
          · simp at hb
          · exact .inr (.inl ⟨x, _, hx, by simpa using hb.symm, by simp⟩)
        · exact .inr (.inl ⟨x, _, hx, by simpa using hb.symm, by simp⟩)
  | out =>
    obtain ⟨x, hx, ⟨f, -, hf⟩ | hb⟩ := tape _ h
    · exact .inl ⟨f, hf⟩
    · split at hb
      · simp at hb
      · rename_i b hr
        exact .inr (.inr (.inr (.inl ⟨x, b, hx, hr, by simpa using hb.symm, rfl⟩)))
  | halt =>
    obtain ⟨x, hx, ⟨f, -, hf⟩ | hb⟩ := tape _ h
    · exact .inl ⟨f, hf⟩
    · exact .inr (.inr (.inr (.inr (.inl ⟨by simpa using hb.symm, by simp [State.arch, hx], rfl⟩))))
  | inc n =>
    obtain ⟨x, hx, ht⟩ := onLoadStore_next h
    exact .inr (.inr (.inr (.inr (.inr ⟨x, n, hx, by simpa [finish] using ht, rfl⟩))))

end Sys2Proof.Machine
end

