-- ==== Sys2Proof/Laws/PerInstr.lean ====
section
/-! SUPPORT. Per-instruction families. `EncodedForm`: an instruction's encoding has its architecture's format and length,
and its opcode field is a key of that architecture's table alone (`30_encoding.md` R100 to R106). -/

namespace Sys2Proof.Laws.EncodedForm

open Sys2Proof

/-- The encoding of `i` is as long as its architecture's instructions, and the other architecture's table does not hold
its opcode. -/
def Statement (i : Instr) : Prop :=
  (encodeBytes i).length = i.arch.ib ∧
    (match i.arch with
      | .tm => (lsOptable.lookup (opcodeOf (encode i))).isNone = true
      | .ls => (tmOptable.lookup (opcodeOf (encode i))).isNone = true)

theorem pinc : Statement .pinc := ⟨rfl, rfl⟩
theorem pdec : Statement .pdec := ⟨rfl, rfl⟩
theorem dinc : Statement .dinc := ⟨rfl, rfl⟩
theorem ddec : Statement .ddec := ⟨rfl, rfl⟩
theorem jzf : Statement .jzf := ⟨rfl, rfl⟩
theorem jnzb : Statement .jnzb := ⟨rfl, rfl⟩
theorem out : Statement .out := ⟨rfl, rfl⟩
theorem halt : Statement .halt := ⟨rfl, rfl⟩

theorem inc (n : RegIndex) : Statement (.inc n) := by
  refine ⟨rfl, ?_⟩
  have h : ∀ m : RegIndex, (tmOptable.lookup (opcodeOf (encode (.inc m)))).isNone = true := by decide
  exact h n

end Sys2Proof.Laws.EncodedForm
end

