-- ==== Sys2Proof/Tests/Slice0.lean ====
section
/-! SUPPORT. Tests of the model against the spec's test vectors (`95_test_vectors.md`, cited as S, 2.x, P), the smoke
tests of the checks, and for every statement with hypotheses a witness that meets them. -/

namespace Sys2Proof.Tests

open Sys2Proof Sys2Proof.Machine

/-! ### Small machines -/

/-- `TM-REF` with the given code and data bytes. -/
def tmAt (image data : Memory) (dp pc : Word) : State :=
  { regs := .tm { dp := dp, pc := pc }
    mem := [{ kind := .rom, base := 0, size := 0x800, bytes := image },
            { kind := .zero, base := 0x800, size := 0x800, bytes := data }]
    out := []
    status := .running }

/-- One writable device of 16 bytes at 0, on a tape machine. -/
def tmSmall (bytes : Memory) (dp pc : Word) : State :=
  { regs := .tm { dp := dp, pc := pc }
    mem := [{ kind := .ram, base := 0, size := 16, bytes := bytes }]
    out := []
    status := .running }

/-- One writable device of 16 bytes at 0, on a load/store machine with `R1 = 0xFFFFFFFF`. -/
def lsSmall (bytes : Memory) (pc : Word) : State :=
  { regs := .ls { r := (Vector.replicate 16 0).set 1 0xFFFFFFFF, sp := 7, lr := 9, pc := pc }
    mem := [{ kind := .ram, base := 0, size := 16, bytes := bytes }]
    out := []
    status := .running }

/-- The next state, if there is one. -/
def nextOf (o : Host.Outcome State Fault Refusal) : Option State :=
  match o with
  | .next s => some s
  | .fault _ => none
  | .refused _ => none

/-! ### Checks that refuse -/

theorem test_wellFormed_refuses_foreign : Instr.wellFormed .tm (.inc 3) = false := by decide
theorem test_wellFormed_refuses_tape_on_ls : Instr.wellFormed .ls .dinc = false := by decide
theorem test_request_refuses_load_with_data : (Request.mk 0 .w8 .load (some 1)).wellFormed = false := by decide
theorem test_request_refuses_store_without_data : (Request.mk 0 .w8 .store none).wellFormed = false := by decide
theorem test_request_refuses_oversize_data : (Request.mk 0 .w8 .store (some 256)).wellFormed = false := by decide
theorem test_build_refuses_long_image : buildDevice ⟨.rom [1, 2, 3], 0, 2⟩ = .error .imageTooLong := by decide
theorem test_build_refuses_range : buildDevice ⟨.zero, 0xFFFFFFFF, 2⟩ = .error .rangePastAddressSpace := by decide
theorem test_build_refuses_range_ram : buildDevice ⟨.ram [1, 2], 0xFFFFFFFF, 2⟩ = .error .rangePastAddressSpace := by decide
theorem test_build_refuses_range_rom : buildDevice ⟨.rom [1], 0xFFFFFFFF, 2⟩ = .error .rangePastAddressSpace := by decide
theorem test_build_refuses_ram_length : buildDevice ⟨.ram [1], 0, 2⟩ = .error .ramInitLength := by decide
theorem test_build_refuses_framebuffer : buildDevice ⟨.opaqueDevice, 0, 2⟩ = .error .opaqueDevice := by decide
theorem test_build_refuses_nested_mmu : buildDevice ⟨.nestedMmu, 0, 2⟩ = .error .nestedMmu := by decide

/-! ### Decoding, from words written out bit by bit (2.3) -/

theorem test_decode_pinc : decode (.tmB 0b00111110#8) = .ok .pinc := by decide
theorem test_decode_pdec : decode (.tmB 0b00111100#8) = .ok .pdec := by decide
theorem test_decode_dinc : decode (.tmB 0b00101011#8) = .ok .dinc := by decide
theorem test_decode_ddec : decode (.tmB 0b00101101#8) = .ok .ddec := by decide
theorem test_decode_jzf : decode (.tmB 0b01011011#8) = .ok .jzf := by decide
theorem test_decode_jnzb : decode (.tmB 0b01011101#8) = .ok .jnzb := by decide
theorem test_decode_out : decode (.tmB 0b00101110#8) = .ok .out := by decide
theorem test_decode_halt : decode (.tmB 0b00000000#8) = .ok .halt := by decide
theorem test_decode_inc15 : decode (.lsW 0b00000000000000000000111100000001#32) = .ok (.inc 15) := by decide
theorem test_decode_inc_ignores_high_bits : decodeBytes .ls [0x01, 0xF1, 0xFF, 0xFF] = .ok (.inc 1) := by decide
theorem test_decode_comma_illegal : decode (.tmB 0x2C) = .error (.illegalOpcode 0x2C) := by decide
theorem test_decode_big_endian_illegal : decodeBytes .ls [0x00, 0x00, 0x00, 0x01] = .error (.illegalOpcode 0) := by decide
theorem test_encode_inc15 : encodeBytes (.inc 15) = [0x01, 0x0F, 0x00, 0x00] := by decide
theorem test_table_word_inc : decodeTableWord 32 0xFFFFF101 = some (.inc 1) := by decide
theorem test_table_word_short : decodeTableWord 8 0x01 = some (.inc 0) := by decide
theorem test_table_word_jnzb : decodeTableWord 8 0x5D = some .jnzb := by decide

/-! ### Register operations (2.1) -/

theorem test_div_floor : regEval .tm .div 7 (-2) = .ok 0xFFFFFFFC := by decide
theorem test_mul_negative : regEval .ls .mul 3 (-1) = .ok 0xFFFFFFFD := by decide
theorem test_shl_whole_count : regEval .tm .shl 1 32 = .ok 0 := by decide
theorem test_shr_logical : regEval .tm .shr 0xFFFFFFFF 4 = .ok 0x0FFFFFFF := by decide
theorem test_xor_minus_one : regEval .tm .xor 0x12345678 (-1) = .ok 0xEDCBA987 := by decide
theorem test_or_bit32_dropped : regEval .tm .or 0 0x100000000 = .ok 0 := by decide

/-! ### Devices and the MMU (2.2) -/

/-- The table's devices `A` and `B` after its rows 1 and 8. -/
def rowMem : List Device :=
  [{ kind := .zero, base := 0, size := 0x800, bytes := [(0x10, 0x44), (0x11, 0x33), (0x12, 0x22), (0x13, 0xEF), (0x14, 0xBE)] },
   { kind := .zero, base := 0x800, size := 0x800, bytes := [] }]

theorem test_rows_1_and_8 :
    (match memWrite [{ kind := .zero, base := 0, size := 0x800, bytes := [] },
        { kind := .zero, base := 0x800, size := 0x800, bytes := [] }] 0x10 .w32 0x11223344#32 with
      | .ok m => memWrite m 0x13 .w16 0xBEEF#16
      | .error f => .error f) = .ok rowMem := by decide
theorem test_row_9 : memRead rowMem 0x10 .w32 = .ok 0xEF223344#32 := by decide
theorem test_row_11 : memRead rowMem 0x7FD .w32 = .error (.outOfRange 0x7FD .w32) := by decide
theorem test_row_18 : memRead rowMem (-1) .w8 = .error (.unmappedAddress (-1)) := by decide
theorem test_row_20 : loadData rowMem 0xFFE [1, 2, 3] =
    ([rowMem[0], { kind := .zero, base := 0x800, size := 0x800, bytes := [(0x7FE, 1), (0x7FF, 2)] }],
      some (.unmappedAddress 0x1000)) := by decide
theorem test_overlap_first_match :
    readByte [{ kind := .zero, base := 0, size := 0x100, bytes := [] },
      { kind := .rom, base := 0x80, size := 0x100, bytes := [(0, 0xEE), (0x80, 0xEE)] }] 0x80 = .ok 0 ∧
    readByte [{ kind := .zero, base := 0, size := 0x100, bytes := [] },
      { kind := .rom, base := 0x80, size := 0x100, bytes := [(0, 0xEE), (0x80, 0xEE)] }] 0x100 = .ok 0xEE := by decide
theorem test_read_only_before_bounds :
    memWrite [{ kind := .rom, base := 0, size := 8, bytes := [] }] 6 .w32 0#32 = .error (.readOnlyViolation 6 .w32) := by decide
theorem test_write_zero_removes_cell : Memory.writeCell [(1, 5), (3, 7)] 3 0 = [(1, 5)] := by decide

/-! ### Instructions, one step each (2.4, P3) -/

theorem test_pinc_wraps : nextOf (step (tmAt [(0x10, 0x3E)] [] 0xFFFFFFFF 0x10)) =
    some (tmAt [(0x10, 0x3E)] [] 0 0x11) := by decide
theorem test_pdec_wraps : nextOf (step (tmAt [(0x10, 0x3C)] [] 0 0x10)) =
    some (tmAt [(0x10, 0x3C)] [] 0xFFFFFFFF 0x11) := by decide
theorem test_dinc_no_carry : nextOf (step (tmAt [(0x10, 0x2B)] [(0, 0xFF), (1, 7)] 0x800 0x10)) =
    some (tmAt [(0x10, 0x2B)] [(1, 7)] 0x800 0x11) := by decide
theorem test_dinc_code_store : nextOf (step (tmAt [(0x10, 0x2B)] [] 5 0x10)) =
    some { tmAt [(0x10, 0x2B)] [] 5 0x10 with status := .faulted (.readOnlyViolation 5 .w8) } := by decide
theorem test_ddec_wraps : nextOf (step (tmAt [(0x10, 0x2D)] [] 0x800 0x10)) =
    some (tmAt [(0x10, 0x2D)] [(0, 0xFF)] 0x800 0x11) := by decide
theorem test_jzf_nesting :
    nextOf (step (tmAt [(0x10, 0x5B), (0x11, 0x5B), (0x12, 0x5D), (0x13, 0x5D)] [] 0x800 0x10)) =
      some (tmAt [(0x10, 0x5B), (0x11, 0x5B), (0x12, 0x5D), (0x13, 0x5D)] [] 0x800 0x14) := by decide
theorem test_jzf_not_taken_unmatched : nextOf (step (tmAt [(0x10, 0x5B), (0x11, 0x2B)] [(0, 1)] 0x800 0x10)) =
    some (tmAt [(0x10, 0x5B), (0x11, 0x2B)] [(0, 1)] 0x800 0x11) := by decide
theorem test_jnzb_nesting :
    nextOf (step (tmAt [(0x10, 0x5B), (0x11, 0x5B), (0x12, 0x5D), (0x13, 0x5D)] [(0, 1)] 0x800 0x13)) =
      some (tmAt [(0x10, 0x5B), (0x11, 0x5B), (0x12, 0x5D), (0x13, 0x5D)] [(0, 1)] 0x800 0x11) := by decide
theorem test_jnzb_runs_off_below_zero : nextOf (step (tmAt [(0, 0x2B), (1, 0x5D)] [(0, 1)] 0x800 1)) =
    some { tmAt [(0, 0x2B), (1, 0x5D)] [(0, 1)] 0x800 1 with status := .faulted (.unmappedAddress (-1)) } := by decide
theorem test_out_reads_code_store : nextOf (step (tmAt [(2, 0x2E), (0x10, 0x2E)] [] 2 0x10)) =
    some { tmAt [(2, 0x2E), (0x10, 0x2E)] [] 2 0x11 with out := [0x2E] } := by decide
theorem test_out_unmapped : nextOf (step (tmAt [(0x10, 0x2E)] [] 0x2000 0x10)) =
    some { tmAt [(0x10, 0x2E)] [] 0x2000 0x10 with status := .faulted (.unmappedAddress 0x2000) } := by decide
theorem test_halt : nextOf (step (tmAt [] [] 0x800 0x10)) =
    some { tmAt [] [] 0x800 0x10 with status := .halted } := by decide
theorem test_inc_wraps_r1 : nextOf (step (lsSmall [(4, 0x01), (5, 0xF1), (6, 0xFF), (7, 0xFF)] 4)) =
    some { lsSmall [(4, 0x01), (5, 0xF1), (6, 0xFF), (7, 0xFF)] 4 with
      regs := .ls { r := Vector.replicate 16 0, sp := 7, lr := 9, pc := 8 } } := by decide
theorem test_ls_fetch_out_of_range : nextOf (step (lsSmall [] 13)) =
    some { lsSmall [] 13 with status := .faulted (.outOfRange 13 .w32) } := by decide
theorem test_illegal_opcode : nextOf (step (tmAt [(1, 0x2C)] [] 0x800 1)) =
    some { tmAt [(1, 0x2C)] [] 0x800 1 with status := .faulted (.illegalOpcode 1 (.tmB 0x2C)) } := by decide
theorem test_self_modified_fetch : nextOf (step (tmSmall [(0, 0x2B), (1, 0x2A)] 1 0)) =
    some (tmSmall [(0, 0x2B), (1, 0x2B)] 1 1) := by decide
theorem test_reset_placed_word : nextOf (step (State.reset.withFetchWord 8 0x2E)) =
    some { State.reset.withFetchWord 8 0x2E with regs := .tm { dp := 0x800, pc := 1 }, out := [0] } := by decide
theorem test_reset_placed_ls_word : (nextOf (step (State.reset.withFetchWord 32 0x301))).map (fun t => t.regs.get? (.r 3)) =
    some (some 1) := by decide

/-! ### Witnesses: each meets the hypotheses of the statement it names -/

theorem witness_RegisterShiftsUseWholeCount : (0 : Int) ≤ 0 ∧ (0 : Int) ≤ 33 := by decide
theorem witness_RegisterDivisionFloors : (-2 : Int) ≠ 0 ∧ (0 : Int) < 3 := by decide
theorem witness_RegisterDomainRefused : (-1 : Int) < 0 := by decide
theorem witness_MutatingFormWritesOnlyItsRegister :
    (lsSmall [] 0).regs.get? (.r 15) = some 0 ∧ regEval .ls .sub 0 1 = .ok 0xFFFFFFFF := by decide
theorem witness_RouteIsFirstMatch :
    (∀ e ∈ [(tmAt [] [] 0 0).mem[0]], ¬ ((e.base : Int) ≤ 0xFFF ∧ (0xFFF : Int) < (e.base : Int) + e.size)) ∧
    ((tmAt [] [] 0 0).mem[1].base : Int) ≤ 0xFFF ∧
    (0xFFF : Int) < ((tmAt [] [] 0 0).mem[1].base : Int) + (tmAt [] [] 0 0).mem[1].size ∧
    (tmAt [] [] 0 0).mem[1].base + (tmAt [] [] 0 0).mem[1].size ≤ 4294967296 ∧
    (∀ e ∈ (tmAt [] [] 0 0).mem, ¬ ((e.base : Int) ≤ 0x1000 ∧ (0x1000 : Int) < (e.base : Int) + e.size)) ∧
    devStore (tmAt [] [] 0 0).mem[1] 0xFFF .w8 1#8 = .ok ⟨.zero, 0x800, 0x800, [(0x7FF, 1)]⟩ ∧
    devStore (tmAt [] [] 0 0).mem[1] 0xFFF .w16 1#16 = .error (.outOfRange 0xFFF .w16) := by decide
theorem witness_AddressesOutsideTheSpaceAreUnmapped :
    ((-1 : Int) < 0 ∨ (4294967296 : Int) ≤ -1) ∧ ((4294967296 : Int) < 0 ∨ (4294967296 : Int) ≤ 4294967296) := by decide
theorem witness_AccessesAreLittleEndian :
    devLoad rowMem[0] 0x7FC .w32 = .ok 0#32 ∧ (devStore rowMem[0] 0x7FE .w16 0x1234#16).isOk = true ∧
      (memWrite rowMem 0xFFC .w32 0x12345678#32).isOk = true := by decide
theorem witness_StoreChangesOnlyItsBytes : (memWrite rowMem 0x7FC .w32 0x12345678#32).isOk = true := by decide
theorem witness_AccessFaultsInOrder :
    route rowMem 0x1000 = .error (.unmappedAddress 0x1000) ∧
    (route rowMem 0x7FF = .ok rowMem[0] ∧ (0 : Int) + 0x800 < 0x7FF + 2 ∧ (0x7FF : Int) + 1 ≤ 0 + 0x800 ∧
      rowMem[0].kind ≠ .rom) ∧
    (route (tmAt [] [] 0 0).mem 0x7FF = .ok (tmAt [] [] 0 0).mem[0] ∧ (tmAt [] [] 0 0).mem[0].kind = .rom) := by decide
theorem witness_NoOverlapMakesOrderIrrelevant :
    NoOverlap rowMem ∧ rowMem.Perm [rowMem[1], rowMem[0]] := ⟨by decide, List.Perm.swap _ _ _⟩
theorem witness_LoadDataWritesEveryByte : (loadData rowMem 0x7FF [0xA, 0xB]).2 = none := by decide
theorem witness_LoadDataStopsAtTheFaultingByte :
    (loadData rowMem 0xFFF [1, 2]).2 = some (.unmappedAddress 0x1000) := by decide
theorem witness_RequestsAreLoadsOrStores :
    (Request.mk 0 .w16 .store (some 65536)).wellFormed = false ∧
    memRead rowMem 0x10 .w16 = .ok 0x3344#16 ∧ memRead rowMem 0x7FF .w16 = .error (.outOfRange 0x7FF .w16) ∧
    (memWrite rowMem 0x10 .w16 0xFFFF#16).isOk = true ∧
    memWrite rowMem 0x1000 .w16 0xFFFF#16 = .error (.unmappedAddress 0x1000) := by decide
theorem witness_BuiltDevicesHoldTheirBytes :
    4294967288 + 8 ≤ 4294967296 ∧ ([0x2B, 0x2E] : List Byte).length ≤ 8 ∧
      ([1, 2, 3, 4, 5, 6, 7, 8] : List Byte).length = 8 := by decide
theorem witness_InadmissibleDevicesRefused :
    (1 < ([1, 2] : List Byte).length ∧ ([1, 2] : List Byte).length ≠ 1) ∧
    (4294967296 < 4294967295 + 2 ∧ ([1] : List Byte).length ≤ 2 ∧ ([1, 2] : List Byte).length = 2) := by decide
theorem witness_DecodeAndEncodeAgree :
    decode (.tmB 0x5D) = .ok .jnzb ∧ decode (.lsW 0xFFFFF101) = .ok (.inc 1) := by decide
theorem witness_StepRunsDecodedInstruction :
    (lsSmall [(4, 1)] 4).status = .running ∧ fetch (lsSmall [(4, 1)] 4) = .ok (.lsW 1) ∧
      decode (.lsW 1) = .ok (.inc 0) := by decide
theorem witness_StoredInstructionRunsNext :
    (lsSmall [] 12).status = .running ∧ Instr.wellFormed (lsSmall [] 12).arch (.inc 15) = true ∧
      (storeRaw (lsSmall [] 12).mem (regRead (lsSmall [] 12).pc) (encode (.inc 15))).isOk = true ∧
      Instr.wellFormed (tmSmall [] 0 15).arch .jzf = true ∧
      (storeRaw (tmSmall [] 0 15).mem (regRead (tmSmall [] 0 15).pc) (encode .jzf)).isOk = true := by decide
theorem witness_PlacedTableWordRunsNext :
    decodeTableWord 32 0xF01 = some (.inc 15) ∧
      (readyCore (tableArch 32 0xF01) (lsSmall [] 0xFFFFFFFC)).pc.toNat + (tableArch 32 0xF01).ib ≤ 4294967296 := by decide
theorem witness_FetchAndDecodeFaultsAreTaken :
    route (tmSmall [] 0 16).mem (regRead (tmSmall [] 0 16).pc) = .error (.unmappedAddress 16) ∧
    ((lsSmall [] 13).arch = .ls ∧ route (lsSmall [] 13).mem (regRead (lsSmall [] 13).pc) = .ok (lsSmall [] 13).mem[0] ∧
      (0 : Int) + 16 < regRead (lsSmall [] 13).pc + 4) ∧
    (fetch (lsSmall [] 12) = .ok (.lsW 0) ∧ decode (.lsW 0) = .error (.illegalOpcode 0)) ∧
    (lsSmall [] 12).status = .running ∧ (lsSmall [] 13).status = .running ∧ (tmSmall [] 0 16).status = .running := by decide
theorem witness_DeadCoreTakesNoStep :
    ({ tmSmall [] 0 0 with status := .halted } : State).status = .halted ∧
      (takeFault (.unmappedAddress 16) (tmSmall [] 0 0)).status = .faulted (.unmappedAddress 16) := by decide
theorem witness_CoreResetGivesResetValues :
    RegName.dp ∈ Arch.tm.regNames ∧ RegName.pc ∈ Arch.tm.regNames ∧ RegName.r 15 ∈ Arch.ls.regNames ∧
      RegName.lr ∈ Arch.ls.regNames := by decide
theorem witness_StepKeepsInvariant :
    (tmSmall [(0, 0x2B)] 15 0).Inv ∧ ∃ t, step (tmSmall [(0, 0x2B)] 15 0) = .next t := ⟨by decide, _, rfl⟩
theorem witness_StepKeepsGeometryAndCodeStores : ∃ t, step (tmAt [(0, 0x2B)] [] 0xFFF 0) = .next t := ⟨_, rfl⟩
theorem witness_OutputGrowsOnlyByOut : ∃ t, step (tmSmall [(0, 0x2E)] 0 0) = .next t := ⟨_, rfl⟩
theorem witness_MemoryChangesOnlyAtTheDataPointer : ∃ t, exec .ddec (tmSmall [] 15 0) = .next t := ⟨_, rfl⟩
theorem witness_FaultingStepChangesOnlyStatus :
    step (tmSmall [] 0 16) = .next (takeFault (.unmappedAddress 16) (tmSmall [] 0 16)) := rfl
theorem witness_OnlyHaltHalts : step (tmSmall [] 0 15) = .next { tmSmall [] 0 15 with status := .halted } := rfl
theorem witness_FaultsOfEachStep :
    step (tmSmall [(0, 0x5D), (1, 1)] 1 0) =
      .next (takeFault (.unmappedAddress (-1)) (tmSmall [(0, 0x5D), (1, 1)] 1 0)) ∧
    step (tmSmall [(14, 0x5B)] 0 14) = .next (takeFault (.unmappedAddress 16) (tmSmall [(14, 0x5B)] 0 14)) ∧
    step (tmAt [(0, 0x2D)] [] 0x7FF 0) = .next (takeFault (.readOnlyViolation 0x7FF .w8) (tmAt [(0, 0x2D)] [] 0x7FF 0)) ∧
    step (tmSmall [(0, 0x2E)] 16 0) = .next (takeFault (.unmappedAddress 16) (tmSmall [(0, 0x2E)] 16 0)) ∧
    step (tmSmall [(0, 0x2A)] 0 0) =
      .next (takeFault (.illegalOpcode 0 (.tmB 0x2A)) (tmSmall [(0, 0x2A)] 0 0)) ∧
    step (tmSmall [] 0 16) = .next (takeFault (.unmappedAddress 16) (tmSmall [] 0 16)) ∧
    step (lsSmall [] 13) = .next (takeFault (.outOfRange 13 .w32) (lsSmall [] 13)) :=
  ⟨rfl, rfl, rfl, rfl, rfl, rfl, rfl⟩

/-- The nested brackets of S5 at 0 to 3, a data byte 0 at 8 and 1 at 9. -/
def brackets : Memory := [(0, 0x5B), (1, 0x5B), (2, 0x5D), (3, 0x5D), (9, 1)]

theorem witness_NestedBracketsMatchByDepth :
    readByte (tmSmall brackets 8 0).mem 0 = .ok 0x5B#8 ∧ readByte (tmSmall brackets 8 0).mem (0 + 1) = .ok 0x5B#8 ∧
    readByte (tmSmall brackets 8 0).mem (0 + 2) = .ok 0x5D#8 ∧
    readByte (tmSmall brackets 8 0).mem (0 + 3) = .ok 0x5D#8 := by decide
theorem witness_PointerInstructionsMoveDp : (tmSmall [] 0xFFFFFFFF 0).regs = .tm ⟨0xFFFFFFFF, 0⟩ := rfl
theorem witness_DataInstructionsChangeTheByteAtDp :
    (tmSmall [] 15 0).regs = .tm ⟨15, 0⟩ ∧
      route (tmSmall [] 15 0).mem (regRead 15) = .ok (tmSmall [] 15 0).mem[0] ∧
      (tmSmall [] 15 0).mem[0].kind ≠ .rom := by decide
theorem witness_DataInstructionFaults :
    (tmSmall [] 16 0).regs = .tm ⟨16, 0⟩ ∧ route (tmSmall [] 16 0).mem (regRead 16) = .error (.unmappedAddress 16) ∧
    (tmAt [] [] 0x7FF 0).regs = .tm ⟨0x7FF, 0⟩ ∧
    route (tmAt [] [] 0x7FF 0).mem (regRead 0x7FF) = .ok (tmAt [] [] 0x7FF 0).mem[0] ∧
    (tmAt [] [] 0x7FF 0).mem[0].kind = .rom := by decide
theorem witness_JumpsNotTakenFallThrough :
    (tmSmall brackets 9 0).regs = .tm ⟨9, 0⟩ ∧ readByte (tmSmall brackets 9 0).mem (regRead 9) = .ok 1 ∧ (1 : Byte) ≠ 0 ∧
    (tmSmall brackets 8 3).regs = .tm ⟨8, 3⟩ ∧ readByte (tmSmall brackets 8 3).mem (regRead 8) = .ok 0 := by decide
theorem witness_JzfJumpsPastItsMatch :
    (tmSmall brackets 8 0).regs = .tm ⟨8, 0⟩ ∧ readByte (tmSmall brackets 8 0).mem (regRead 8) = .ok 0 ∧
      BracketMatch (tmSmall brackets 8 0).mem .forward (regRead 0) 3 :=
  ⟨by decide, by decide, [0x5B, 0x5D], 0x5D, ⟨by decide, by decide⟩, by decide, by decide, by decide⟩
theorem witness_JnzbJumpsBackAfterItsMatch :
    (tmSmall brackets 9 3).regs = .tm ⟨9, 3⟩ ∧ readByte (tmSmall brackets 9 3).mem (regRead 9) = .ok 1 ∧ (1 : Byte) ≠ 0 ∧
      BracketMatch (tmSmall brackets 9 3).mem .backward (regRead 3) 3 :=
  ⟨by decide, by decide, by decide, [0x5D, 0x5B], 0x5B, ⟨by decide, by decide⟩, by decide, by decide, by decide⟩
theorem witness_JumpFaults_unmapped_dp :
    (tmSmall [] 16 0).regs = .tm ⟨16, 0⟩ ∧ route (tmSmall [] 16 0).mem (regRead 16) = .error (.unmappedAddress 16) := by decide
theorem witness_JumpFaults_forward :
    (tmSmall [(14, 0x5B)] 0 14).regs = .tm ⟨0, 14⟩ ∧ readByte (tmSmall [(14, 0x5B)] 0 14).mem (regRead 0) = .ok 0 ∧
      BracketRunsOff (tmSmall [(14, 0x5B)] 0 14).mem .forward (regRead 14) 2 :=
  ⟨by decide, by decide, [0], ⟨by decide, by decide⟩, by decide, by decide⟩
theorem witness_JumpFaults_backward :
    (tmSmall [(0, 0x5D), (1, 1)] 1 0).regs = .tm ⟨1, 0⟩ ∧
      readByte (tmSmall [(0, 0x5D), (1, 1)] 1 0).mem (regRead 1) = .ok 1 ∧ (1 : Byte) ≠ 0 ∧
      BracketRunsOff (tmSmall [(0, 0x5D), (1, 1)] 1 0).mem .backward (regRead 0) 1 :=
  ⟨by decide, by decide, by decide, [], ⟨by decide, by decide⟩, by decide, by decide⟩
theorem witness_WellBracketedJumpsComplete :
    WellBracketed (tmSmall brackets 8 0).mem 0 4 ∧
      readByte (tmSmall brackets 8 0).mem (regRead 0) = .ok openBracket ∧
      readByte (tmSmall brackets 8 3).mem (regRead 3) = .ok closeBracket ∧
      readByte (tmSmall brackets 8 0).mem (regRead 8) = .ok 0 := by
  refine ⟨fun a h0 h4 => ?_, by decide, by decide, by decide⟩
  obtain rfl | rfl | rfl | rfl : a = 0 ∨ a = 1 ∨ a = 2 ∨ a = 3 := by omega
  · exact ⟨fun _ => ⟨3, [0x5B, 0x5D], 0x5D, ⟨by decide, by decide⟩, by decide, by decide, by decide⟩,
      fun h => absurd h (by decide)⟩
  · exact ⟨fun _ => ⟨1, [], 0x5D, ⟨by decide, by decide⟩, by decide, by decide, by decide⟩,
      fun h => absurd h (by decide)⟩
  · exact ⟨fun h => absurd h (by decide),
      fun _ => ⟨1, [], 0x5B, ⟨by decide, by decide⟩, by decide, by decide, by decide⟩⟩
  · exact ⟨fun h => absurd h (by decide),
      fun _ => ⟨3, [0x5D, 0x5B], 0x5B, ⟨by decide, by decide⟩, by decide, by decide, by decide⟩⟩
theorem witness_OutAppendsTheByteAtDp :
    (tmSmall [] 15 0).regs = .tm ⟨15, 0⟩ ∧ route (tmSmall [] 15 0).mem (regRead 15) = .ok (tmSmall [] 15 0).mem[0] ∧
    (tmSmall [] 16 0).regs = .tm ⟨16, 0⟩ ∧ route (tmSmall [] 16 0).mem (regRead 16) = .error (.unmappedAddress 16) := by decide
theorem witness_HaltChangesOnlyStatus : (tmSmall [] 0 0xFFFFFFFF).regs = .tm ⟨0, 0xFFFFFFFF⟩ := rfl
theorem witness_IncAddsOneToRn :
    (lsSmall [] 0xFFFFFFFC).regs = .ls ⟨(Vector.replicate 16 0).set 1 0xFFFFFFFF, 7, 9, 0xFFFFFFFC⟩ := rfl
theorem witness_StackAndLinkNeitherReadNorWritten :
    (lsSmall [(12, 1)] 12).regs = .ls ⟨(Vector.replicate 16 0).set 1 0xFFFFFFFF, 7, 9, 12⟩ ∧
      ∃ t, step (lsSmall [(12, 1)] 12) = .next t := ⟨rfl, _, rfl⟩
theorem witness_LoadStorePcStaysAligned :
    (lsSmall [(12, 1)] 12).arch = .ls ∧ (lsSmall [(12, 1)] 12).pc.toNat % 4 = 0 ∧
      ∃ t, step (lsSmall [(12, 1)] 12) = .next t := ⟨rfl, rfl, _, rfl⟩
theorem witness_ForeignInstructionsRefused :
    Instr.wellFormed (lsSmall [] 0).arch .halt = false ∧ Instr.wellFormed (tmSmall [] 0 0).arch (.inc 0) = false ∧
      fetchDecode (tmSmall [] 0 0) = .ok .halt := by decide

end Sys2Proof.Tests
end

section
/-! The register names of the two architectures (`10_state.md` R22 to R24): which names each architecture declares, and
which names a lookup in a register file answers. -/

namespace Sys2Proof.Machine

open Sys2Proof

/-- The tape machine declares `DP` and `PC` alone (R23). -/
@[simp] theorem mem_regNames_tm {name : RegName} : name ∈ Arch.tm.regNames ↔ name = .dp ∨ name = .pc := by
  simp [Arch.regNames]

/-- Every 4-bit index names a declared general register of the load/store machine (R24, R107). -/
theorem r_mem_regNames_ls (n : RegIndex) : RegName.r n ∈ Arch.ls.regNames :=
  List.mem_append_left _ (List.mem_map.mpr ⟨n.toNat, List.mem_range.mpr n.isLt, by simp⟩)

/-- The load/store machine declares every name but `DP` (R24). -/
@[simp] theorem mem_regNames_ls {name : RegName} : name ∈ Arch.ls.regNames ↔ name ≠ .dp := by
  cases name with
  | r n => simp [r_mem_regNames_ls]
  | dp | sp | lr | pc => simp [Arch.regNames]

/-- A lookup in the tape machine's file succeeds by `DP` and `PC` alone. -/
theorem get?_tm_isSome_iff {x : TmRegs} {name : RegName} :
    ((RegFile.tm x).get? name).isSome = true ↔ name = .dp ∨ name = .pc := by
  cases name <;> simp [RegFile.get?]

/-- A lookup in the load/store machine's file succeeds by every name but `DP`. -/
theorem get?_ls_isSome_iff {x : LsRegs} {name : RegName} :
    ((RegFile.ls x).get? name).isSome = true ↔ name ≠ .dp := by
  cases name <;> simp [RegFile.get?]

/-- Settles O8: for each architecture the declared names and the names a lookup answers have the same description. -/
theorem registerNamesAreTheDeclaredOnes : Obligations.RegisterNamesAreTheDeclaredOnes := by
  intro x name
  cases x with
  | tm x => exact get?_tm_isSome_iff.trans mem_regNames_tm.symm
  | ls x => exact get?_ls_isSome_iff.trans mem_regNames_ls.symm

end Sys2Proof.Machine
end

section
/-! Routing and delegation (`20_memory.md` R59 to R61): how the first device that holds an address answers an access, and
what an access is once its device is known. -/

namespace Sys2Proof.Machine

open Sys2Proof

/-- What stands before and after the first device that holds the address plays no part in routing (R59). -/
theorem route_append_cons {before after : List Device} {d : Device} {a : Int} (ha : 0 ≤ a ∧ a < 0x100000000)
    (hd : d.contains a = true) (hb : ∀ e ∈ before, ¬ e.contains a = true) : route (before ++ d :: after) a = .ok d := by
  have hskip : before.find? (fun e => e.contains a) = none := List.find?_eq_none.mpr hb
  exact route_ok_iff.mpr ⟨ha, by simp [List.find?_append, hskip, hd]⟩

/-- An address that no device holds is unmapped (R59). -/
theorem route_of_not_contains {mem : List Device} {a : Int} (h : ∀ e ∈ mem, ¬ e.contains a = true) :
    route mem a = .error (.unmappedAddress a) := by
  cases hr : route mem a with
  | ok d => exact absurd (route_contains hr) (h d (route_mem hr))
  | error f => rw [route_error hr]

/-- Replacing the routed device exchanges it in its place and leaves the devices around it. -/
theorem replaceRouted_append_cons {before after : List Device} {d d' : Device} {a : Int} (hd : d.contains a = true)
    (hb : ∀ e ∈ before, ¬ e.contains a = true) :
    replaceRouted a d' (before ++ d :: after) = before ++ d' :: after := by
  induction before with
  | nil => simp [replaceRouted, hd]
  | cons e before ih =>
    have he : ¬ e.contains a = true := hb e List.mem_cons_self
    have htail := ih fun x hx => hb x (List.mem_cons_of_mem _ hx)
    simp [replaceRouted, he, htail]

/-- A load is the routed device's load (R60). -/
theorem memRead_of_route {mem : List Device} {a : Int} {d : Device} (h : route mem a = .ok d) (w : Width) :
    memRead mem a w = devLoad d a w := by
  simp only [memRead, h]

/-- A store that the routed device takes replaces that device (R61). -/
theorem memWrite_of_devStore_ok {mem : List Device} {a : Int} {d d' : Device} {w : Width} {v : BitVec w.bits}
    (h : route mem a = .ok d) (hs : devStore d a w v = .ok d') : memWrite mem a w v = .ok (replaceRouted a d' mem) := by
  simp only [memWrite, h, hs]

/-- A store that the routed device refuses faults as the device does (R61). -/
theorem memWrite_of_devStore_error {mem : List Device} {a : Int} {d : Device} {w : Width} {v : BitVec w.bits}
    {f : FaultInfo} (h : route mem a = .ok d) (hs : devStore d a w v = .error f) : memWrite mem a w v = .error f := by
  simp only [memWrite, h, hs]

/-- Settles O9: the device's range lies inside the address space, so the address does, and the devices before it are
passed over both when routing and when storing. -/
theorem routeIsFirstMatch : Obligations.RouteIsFirstMatch := by
  refine ⟨fun before after d a hsize hlo hhi hbefore => ?_, fun mem a hnone => ?_⟩
  · have hd : d.contains a = true := contains_iff.mpr ⟨hlo, hhi⟩
    have hb : ∀ e ∈ before, ¬ e.contains a = true := fun e he hc => hbefore e he (contains_iff.mp hc)
    have hr : route (before ++ d :: after) a = .ok d := route_append_cons (by omega) hd hb
    refine ⟨hr, fun w => ⟨memRead_of_route hr w, fun v => ⟨fun d' hs => ?_, fun f hs => ?_⟩⟩⟩
    · rw [memWrite_of_devStore_ok hr hs, replaceRouted_append_cons hd hb]
    · exact memWrite_of_devStore_error hr hs
  · exact route_of_not_contains fun e he hc => hnone e he (contains_iff.mp hc)

end Sys2Proof.Machine
end

section
/-! Byte order (`20_memory.md` R54, R55, R63): the bytes of a little-endian integer, the bytes a device load and a device
store deal in, and the load of what was just stored. -/

namespace Sys2Proof.Machine

open Sys2Proof

/-- Byte `i` of a little-endian integer counts `256^i` (R63). -/
theorem leNat_div_mod {bs : List Byte} {i : Nat} (h : i < bs.length) : leNat bs / 256 ^ i % 256 = bs[i].toNat := by
  induction bs generalizing i with
  | nil => simp at h
  | cons b bs ih =>
    have hb := b.isLt
    cases i with
    | zero => simp only [leNat, pow_zero, List.getElem_cons_zero]; omega
    | succ i =>
      have hdrop : (b.toNat + 256 * leNat bs) / 256 = leNat bs := by omega
      rw [leNat, pow_succ', ← Nat.div_div_eq_div_mul, hdrop]
      exact ih (by simpa using h)

/-- A byte inside a value of `n` bits is that byte of the integer the value was reduced from. -/
theorem byteAt_ofNat {n i : Nat} (x : Nat) (h : 8 * (i + 1) ≤ n) :
    byteAt (BitVec.ofNat n x) i = BitVec.ofNat 8 (x / 256 ^ i) := by
  apply BitVec.eq_of_getLsbD_eq
  intro j hj
  have hin : 8 * i + j < n := by omega
  have hpow : 256 ^ i = 2 ^ (8 * i) := (pow_mul 2 8 i).symm
  simp only [byteAt, BitVec.getLsbD_extractLsb', BitVec.getLsbD_ofNat, Nat.testBit_div_two_pow, hpow, hj, hin,
    decide_true, Bool.true_and, Nat.add_comm j]

/-- The little-endian integer of a byte list, as a value wide enough for byte `i`, has the list's byte there (R63). -/
theorem byteAt_ofNat_leNat {n i : Nat} {bs : List Byte} (hi : i < bs.length) (hn : 8 * (i + 1) ≤ n) :
    byteAt (BitVec.ofNat n (leNat bs)) i = bs[i] := by
  rw [byteAt_ofNat _ hn]
  apply BitVec.eq_of_toNat_eq
  rw [BitVec.toNat_ofNat]
  exact leNat_div_mod hi

/-- A byte is eight bits, at every width (R51). -/
theorem bits_eq_mul_bytes (w : Width) : w.bits = 8 * w.bytes := by cases w <;> rfl

/-- Byte `i` of a loaded value is the byte at offset `i` from the address (R54, R63). -/
theorem byteAt_of_devLoad {d : Device} {a : Int} {w : Width} {v : BitVec w.bits} (h : devLoad d a w = .ok v)
    {i : Nat} (hi : i < w.bytes) : byteAt v i = Memory.readCell d.bytes (d.offset a + i) := by
  obtain ⟨-, rfl⟩ := devLoad_ok_iff.mp h
  have hbits := bits_eq_mul_bytes w
  have hlen : i < (Memory.readCells d.bytes (d.offset a) w.bytes).length := by simpa using hi
  rw [byteAt_ofNat_leNat hlen (by omega), readCells_getElem]

/-- After a store the byte at offset `i` from the address is byte `i` of the value (R55, R63). -/
theorem readCell_of_devStore {d d' : Device} {a : Int} {w : Width} {v : BitVec w.bits} (h : devStore d a w v = .ok d')
    {i : Nat} (hi : i < w.bytes) : Memory.readCell d'.bytes (d.offset a + i) = byteAt v i := by
  obtain ⟨-, -, rfl⟩ := devStore_ok h
  rw [readCell_writeCells, dif_pos ⟨by omega, by simpa using hi⟩, leBytes_getElem, Nat.add_sub_cancel_left]

/-- A device gives back the value just stored in it (R63). -/
theorem devLoad_of_devStore {d d' : Device} {a : Int} {w : Width} {v : BitVec w.bits} (h : devStore d a w v = .ok d') :
    devLoad d' a w = .ok v := by
  have hoff : d'.offset a = d.offset a := offset_congr (devStore_geometry h) a
  obtain ⟨-, hin, rfl⟩ := devStore_ok h
  have hbytes := readCells_writeCells_same d.bytes (d.offset a) (leBytes v w.bytes)
  rw [leBytes_length] at hbytes
  rw [devLoad_ok_iff, hoff, hbytes, ofNat_leNat_leBytes]
  exact ⟨hin, rfl⟩

/-- After a store the address is routed to the device as the store left it. -/
theorem route_of_memWrite {mem mem' : List Device} {a : Int} {w : Width} {v : BitVec w.bits}
    (h : memWrite mem a w v = .ok mem') : ∃ d d', devStore d a w v = .ok d' ∧ route mem' a = .ok d' := by
  obtain ⟨d, d', hr, hs, rfl⟩ := memWrite_ok h
  obtain ⟨hspace, hfirst⟩ := route_ok_iff.mp hr
  exact ⟨d, d', hs, route_ok_iff.mpr ⟨hspace, find_replaceRouted_same hfirst (devStore_geometry hs)⟩⟩

/-- Settles O11: the first two clauses are the device's own byte order; the round trip is that of the device a store is
routed to, which the later load is routed to again. -/
theorem accessesAreLittleEndian : Obligations.AccessesAreLittleEndian := by
  refine ⟨fun d a w v h i hi => byteAt_of_devLoad h hi, fun d d' a w v h i hi => readCell_of_devStore h hi,
    fun mem mem' a w v h => ?_⟩
  obtain ⟨d, d', hs, hr⟩ := route_of_memWrite h
  rw [memRead_of_route hr w, devLoad_of_devStore hs]

end Sys2Proof.Machine
end

section
/-! The nine operations of a register (`40_register_ops.md` R130 to R141): the integer a reduced value reads as, its bits,
and the two shifts inside their operand domain. -/

namespace Sys2Proof.Machine

open Sys2Proof

/-- A register holds the non-negative remainder of the integer it was made from (R131). -/
@[simp] theorem regRead_regOfInt (v : Int) : regRead (regOfInt v) = v % 4294967296 := by
  have hnonneg : 0 ≤ v % 4294967296 := Int.emod_nonneg v (by decide)
  calc regRead (regOfInt v) = ((v % 4294967296).toNat : Int) := congrArg Int.ofNat (BitVec.toNat_ofInt v)
    _ = v % 4294967296 := Int.toNat_of_nonneg hnonneg

/-- The bits of a reduced operand are the low 32 bits of its remainder (R139 to R141). -/
theorem getLsbD_regOfInt (v : Int) (i : Nat) : (regOfInt v).getLsbD i = (v % 4294967296).toNat.testBit i :=
  congrArg (fun n : Nat => n.testBit i) (BitVec.toNat_ofInt v)

/-- Inside its domain the left shift is the word's shift by the whole count (R137, R144). -/
theorem regShl_of_nonneg (a : Word) {b : Int} (hb : 0 ≤ b) : regShl a b = .ok (a <<< b.toNat) :=
  if_neg (Int.not_lt.mpr hb)

/-- Inside its domain the right shift is the word's logical shift by the whole count (R138, R144). -/
theorem regShr_of_nonneg (a : Word) {b : Int} (hb : 0 ≤ b) : regShr a b = .ok (a >>> b.toNat) :=
  if_neg (Int.not_lt.mpr hb)

/-- A word shifted left reads as its multiple by a power of two, reduced (R137). -/
theorem regRead_shiftLeft (a : Word) (n : Nat) : regRead (a <<< n) = (regRead a * 2 ^ n) % 4294967296 := by
  simp [regRead, BitVec.toNat_shiftLeft, Nat.shiftLeft_eq]

/-- A word shifted right reads as its quotient by a power of two: zeros enter at the top (R138). -/
theorem regRead_ushiftRight (a : Word) (n : Nat) : regRead (a >>> n) = regRead a / 2 ^ n := by
  simp [regRead, BitVec.toNat_ushiftRight, Nat.shiftRight_eq_div_pow]

/-- Settles O1: reading a constructed register is the reduction itself. -/
theorem registerHoldsValueModulo : Obligations.RegisterHoldsValueModulo := regRead_regOfInt

/-- Settles O2: each of the three constructs a register from the exact integer result. -/
theorem registerAddSubMulWrap : Obligations.RegisterAddSubMulWrap := fun _ _ _ =>
  ⟨⟨_, rfl, regRead_regOfInt _⟩, ⟨_, rfl, regRead_regOfInt _⟩, ⟨_, rfl, regRead_regOfInt _⟩⟩

/-- Settles O3: a non-negative count is inside the domain, and the word shifts by it as arithmetic does. -/
theorem registerShiftsUseWholeCount : Obligations.RegisterShiftsUseWholeCount := fun _ a _ hb =>
  ⟨⟨_, regShl_of_nonneg a hb, regRead_shiftLeft a _⟩, ⟨_, regShr_of_nonneg a hb, regRead_ushiftRight a _⟩⟩

/-- Settles O4: the word operations go bit by bit, and the reduced operand has the remainder's bits. -/
theorem registerBitwiseOnReducedOperand : Obligations.RegisterBitwiseOnReducedOperand := by
  intro arch a b
  refine ⟨⟨_, rfl, fun i _ => ?_⟩, ⟨_, rfl, fun i _ => ?_⟩, ⟨_, rfl, fun i _ => ?_⟩⟩
  · rw [regAnd, BitVec.getLsbD_and, getLsbD_regOfInt]
  · rw [regOr, BitVec.getLsbD_or, getLsbD_regOfInt]
  · rw [regXor, BitVec.getLsbD_xor, getLsbD_regOfInt]

end Sys2Proof.Machine
end

section
/-! Writing a register by name (`10_state.md` R21, R22) and the mutating form of a register operation
(`40_register_ops.md` R142): which writes succeed, what each one is, and what it leaves unchanged. -/

namespace Sys2Proof.Machine

open Sys2Proof

/-- A register that can be read by name can be written by that name (R22). -/
theorem set?_of_get? {x : RegFile} {name : RegName} {a : Word} (h : x.get? name = some a) (v : Word) :
    ∃ y, x.set? name v = some y := by
  have hsome : (x.get? name).isSome = true := by rw [h]; rfl
  cases x with
  | tm x => obtain rfl | rfl := get?_tm_isSome_iff.mp hsome <;> exact ⟨_, rfl⟩
  | ls x =>
    cases name with
    | dp => exact absurd rfl (get?_ls_isSome_iff.mp hsome)
    | r n => exact ⟨_, rfl⟩
    | sp | lr | pc => exact ⟨_, rfl⟩

/-- What a write to the tape machine's file can do: set `DP` or set `PC` (R23). -/
theorem set?_tm_cases {x : TmRegs} {name : RegName} {v : Word} {y : RegFile}
    (h : (RegFile.tm x).set? name v = some y) :
    name = .dp ∧ y = .tm { x with dp := v } ∨ name = .pc ∧ y = .tm { x with pc := v } := by
  cases name with
  | dp => exact .inl ⟨rfl, (Option.some.inj h).symm⟩
  | pc => exact .inr ⟨rfl, (Option.some.inj h).symm⟩
  | r n => cases h
  | sp | lr => cases h

/-- What a write to the load/store machine's file can do: set some `Rn`, `SP`, `LR` or `PC` (R24). -/
theorem set?_ls_cases {x : LsRegs} {name : RegName} {v : Word} {y : RegFile}
    (h : (RegFile.ls x).set? name v = some y) :
    (∃ n, name = .r n ∧ y = .ls (x.setR n v)) ∨ name = .sp ∧ y = .ls { x with sp := v } ∨
      name = .lr ∧ y = .ls { x with lr := v } ∨ name = .pc ∧ y = .ls { x with pc := v } := by
  cases name with
  | dp => cases h
  | r n => exact .inl ⟨n, rfl, (Option.some.inj h).symm⟩
  | sp => exact .inr (.inl ⟨rfl, (Option.some.inj h).symm⟩)
  | lr => exact .inr (.inr (.inl ⟨rfl, (Option.some.inj h).symm⟩))
  | pc => exact .inr (.inr (.inr ⟨rfl, (Option.some.inj h).symm⟩))

/-- A write to a register keeps the architecture. -/
theorem arch_set? {x y : RegFile} {name : RegName} {v : Word} (h : x.set? name v = some y) : y.arch = x.arch := by
  cases x with
  | tm x => obtain ⟨-, rfl⟩ | ⟨-, rfl⟩ := set?_tm_cases h <;> rfl
  | ls x => obtain ⟨n, -, rfl⟩ | ⟨-, rfl⟩ | ⟨-, rfl⟩ | ⟨-, rfl⟩ := set?_ls_cases h <;> rfl

/-- A register reads as the value just written to it (R21). -/
theorem get?_set?_same {x y : RegFile} {name : RegName} {v : Word} (h : x.set? name v = some y) :
    y.get? name = some v := by
  cases x with
  | tm x => obtain ⟨rfl, rfl⟩ | ⟨rfl, rfl⟩ := set?_tm_cases h <;> rfl
  | ls x =>
    obtain ⟨n, rfl, rfl⟩ | ⟨rfl, rfl⟩ | ⟨rfl, rfl⟩ | ⟨rfl, rfl⟩ := set?_ls_cases h
    · exact congrArg some (getR_setR_same x n v)
    · rfl
    · rfl
    · rfl

/-- A write to `Rn` changes the lookup by no other name (R25). -/
theorem get?_setR_ne (x : LsRegs) {n : RegIndex} {m : RegName} (v : Word) (hm : m ≠ .r n) :
    (RegFile.ls (x.setR n v)).get? m = (RegFile.ls x).get? m := by
  cases m with
  | r k => exact congrArg some (getR_setR_ne x k n v fun hk => hm (congrArg RegName.r hk))
  | dp | sp | lr | pc => rfl

/-- A write to one register leaves every other register as it was (R21): any other name looks up a field the write does
not touch. -/
theorem get?_set?_ne {x y : RegFile} {name m : RegName} {v : Word} (h : x.set? name v = some y) (hm : m ≠ name) :
    y.get? m = x.get? m := by
  cases x with
  | tm x => obtain ⟨rfl, rfl⟩ | ⟨rfl, rfl⟩ := set?_tm_cases h <;> cases m <;> trivial
  | ls x =>
    obtain ⟨n, rfl, rfl⟩ | ⟨rfl, rfl⟩ | ⟨rfl, rfl⟩ | ⟨rfl, rfl⟩ := set?_ls_cases h
    · exact get?_setR_ne x v hm
    all_goals cases m <;> trivial

/-- Inside the operand domain the mutating form is the write of the non-mutating form's result (R142). -/
theorem apply_of_regEval {x y : RegFile} {op : RegOp} {name : RegName} {b : Int} {a v : Word}
    (hget : x.get? name = some a) (heval : regEval x.arch op a b = .ok v) (hset : x.set? name v = some y) :
    x.apply op name b = .ok y := by
  simp only [RegFile.apply, hget, heval, hset]

/-- Settles O7: the register is there to be written, the mutating form is that write, and a write changes one register. -/
theorem mutatingFormWritesOnlyItsRegister : Obligations.MutatingFormWritesOnlyItsRegister := by
  intro x op name b a v hget heval
  obtain ⟨y, hset⟩ := set?_of_get? hget v
  exact ⟨y, apply_of_regEval hget heval hset, arch_set? hset, get?_set?_same hset, fun m hm => get?_set?_ne hset hm⟩

end Sys2Proof.Machine
end

section
/-! What one store does (`20_memory.md` R55, R61): the device it replaces, the invariant, the geometry and the code stores
it keeps, and the bytes it leaves alone. -/

namespace Sys2Proof.Machine

open Sys2Proof

/-! ### The store's device -/

/-- A device that takes a store stays as the spec admits it (R34, R53). -/
theorem devStore_wf {d d' : Device} {a : Int} {w : Width} {v : BitVec w.bits} (hd : d.wf)
    (h : devStore d a w v = .ok d') : d'.wf := by
  obtain ⟨-, hin, rfl⟩ := devStore_ok h
  obtain ⟨hcanon, hbound, hrange⟩ := hd
  exact ⟨writeCells_wf _ _ hcanon, writeCells_bound hbound (by simpa using hin), hrange⟩

/-- A store leaves every byte of its device outside the `n` it writes (R55). -/
theorem readCell_of_devStore_ne {d d' : Device} {a : Int} {w : Width} {v : BitVec w.bits}
    (h : devStore d a w v = .ok d') {i : Nat} (hi : i < d.offset a ∨ d.offset a + w.bytes ≤ i) :
    Memory.readCell d'.bytes i = Memory.readCell d.bytes i := by
  obtain ⟨-, -, rfl⟩ := devStore_ok h
  rw [readCell_writeCells, dif_neg]
  rw [leBytes_length]
  omega

/-! ### The device list after the store -/

section
variable {mem mem' : List Device} {a : Int} {w : Width} {v : BitVec w.bits}

/-- A store keeps the geometry and the registration order (R20). -/
theorem memWrite_geometry (h : memWrite mem a w v = .ok mem') : memGeometry mem' = memGeometry mem := by
  obtain ⟨d, d', hr, hs, rfl⟩ := memWrite_ok h
  exact replaceRouted_geometry (route_ok_iff.mp hr).2 (devStore_geometry hs)

/-- A store changes no code store (R56). -/
theorem memWrite_codeStores (h : memWrite mem a w v = .ok mem') : codeStores mem' = codeStores mem := by
  obtain ⟨d, d', hr, hs, rfl⟩ := memWrite_ok h
  obtain ⟨hkind, -, rfl⟩ := devStore_ok hs
  exact replaceRouted_codeStores (route_ok_iff.mp hr).2 hkind hkind

/-- A store keeps every device as the spec admits it. -/
theorem memWrite_wf (hm : ∀ d ∈ mem, d.wf) (h : memWrite mem a w v = .ok mem') : ∀ d ∈ mem', d.wf := by
  obtain ⟨d, d', hr, hs, rfl⟩ := memWrite_ok h
  intro e he
  rcases mem_replaceRouted he with rfl | he
  · exact devStore_wf (hm d (route_mem hr)) hs
  · exact hm e he

end

/-! ### Reading after the store -/

/-- Routing depends on the device list through its first match alone (R59). -/
theorem route_congr {mem mem' : List Device} {a : Int}
    (h : mem'.find? (fun e => e.contains a) = mem.find? (fun e => e.contains a)) : route mem' a = route mem a := by
  simp only [route, h]

/-- A load depends on the device list through routing alone (R60). -/
theorem memRead_congr {mem mem' : List Device} {a : Int} (h : route mem' a = route mem a) (w : Width) :
    memRead mem' a w = memRead mem a w := by
  simp only [memRead, h]

/-- A store leaves the byte at every address outside the `n` it writes. Such an address is routed as before, or to the
device the store replaced, at an offset the store did not write. -/
theorem readByte_of_memWrite_ne {mem mem' : List Device} {a x : Int} {w : Width} {v : BitVec w.bits}
    (h : memWrite mem a w v = .ok mem') (hx : x < a ∨ a + w.bytes ≤ x) : readByte mem' x = readByte mem x := by
  obtain ⟨d, d', hr, hs, rfl⟩ := memWrite_ok h
  have hgeom := devStore_geometry hs
  obtain hsame | ⟨hold, hnew⟩ := find_replaceRouted (route_ok_iff.mp hr).2 hgeom x
  · exact memRead_congr (route_congr hsame) .w8
  · by_cases hspace : 0 ≤ x ∧ x < 0x100000000
    · have hrx : route mem x = .ok d := route_ok_iff.mpr ⟨hspace, hold⟩
      have hcells : Memory.readCell d'.bytes (d.offset x) = Memory.readCell d.bytes (d.offset x) := by
        have hca := contains_iff.mp (route_contains hr)
        have hcx := contains_iff.mp (route_contains hrx)
        apply readCell_of_devStore_ne hs
        unfold Device.offset
        omega
      rw [readByte_of_route (route_ok_iff.mpr ⟨hspace, hnew⟩), readByte_of_route hrx, offset_congr hgeom, hcells]
    · rw [readByte_outside hspace, readByte_outside hspace]

/-- A byte store leaves the byte at every other address (R67). -/
theorem readByte_of_writeByte_ne {mem mem' : List Device} {a x : Int} {b : Byte} (h : writeByte mem a b = .ok mem')
    (hx : x ≠ a) : readByte mem' x = readByte mem x :=
  readByte_of_memWrite_ne h (by simp only [Width.bytes]; omega)

/-- A load of the width just stored gives the stored value (R63). -/
theorem memRead_of_memWrite {mem mem' : List Device} {a : Int} {w : Width} {v : BitVec w.bits}
    (h : memWrite mem a w v = .ok mem') : memRead mem' a w = .ok v := by
  obtain ⟨-, -, hround⟩ := accessesAreLittleEndian
  exact hround mem mem' a w v h

/-- A byte just stored is read back (R67). -/
theorem readByte_of_writeByte {mem mem' : List Device} {a : Int} {b : Byte} (h : writeByte mem a b = .ok mem') :
    readByte mem' a = .ok b := memRead_of_memWrite h

end Sys2Proof.Machine
end

section
/-! What a step leaves of the parameters and the memory (`10_state.md` R20, R34, `20_memory.md` R53, R56): memory moves by
one byte store at `x[DP]` alone, so what every store keeps, every step keeps. -/

namespace Sys2Proof.Machine

open Sys2Proof

/-- The only effect of an instruction on memory is a byte store at `x[DP]`, by `DINC` or `DDEC`. -/
theorem exec_mem {i : Instr} {s t : State} (h : exec i s = .next t) :
    t.mem = s.mem ∨
      ∃ x b, s.regs = .tm x ∧ (i = .dinc ∨ i = .ddec) ∧ writeByte s.mem (regRead x.dp) b = .ok t.mem := by
  obtain ⟨f, rfl⟩ | ⟨x, y, -, rfl, -⟩ | ⟨x, b, mem, hx, hw, rfl, hi⟩ | ⟨x, b, -, -, rfl, -⟩ | ⟨rfl, -, -⟩ |
    ⟨x, n, -, rfl, -⟩ := exec_next h
  case inr.inr.inl => exact .inr ⟨x, b, hx, hi, hw⟩
  all_goals exact .inl rfl

/-- No instruction changes the architecture (R20). -/
theorem exec_arch {i : Instr} {s t : State} (h : exec i s = .next t) : t.arch = s.arch := by
  obtain ⟨f, rfl⟩ | ⟨x, y, hx, rfl, -⟩ | ⟨x, b, mem, hx, -, rfl, -⟩ | ⟨x, b, hx, -, rfl, -⟩ | ⟨rfl, -, -⟩ |
    ⟨x, n, hx, rfl, -⟩ := exec_next h
  case inl | inr.inr.inr.inr.inl => rfl
  all_goals simp [State.arch, hx]

/-- No step changes the architecture (R20). -/
theorem step_arch {s t : State} (h : step s = .next t) : t.arch = s.arch := by
  obtain ⟨-, ⟨f, -, rfl⟩ | ⟨i, -, he⟩⟩ := step_next h
  · rfl
  · exact exec_arch he

/-- What every byte store keeps of the device list, every step keeps. -/
theorem step_keeps_of_writeByte {P : List Device → Prop}
    (hP : ∀ mem mem' a b, P mem → writeByte mem a b = .ok mem' → P mem') {s t : State} (hs : P s.mem)
    (h : step s = .next t) : P t.mem := by
  obtain ⟨-, ⟨f, -, rfl⟩ | ⟨i, -, he⟩⟩ := step_next h
  · exact hs
  · obtain hmem | ⟨x, b, -, -, hw⟩ := exec_mem he
    · rwa [hmem]
    · exact hP _ _ _ _ hs hw

/-- Settles O30: a byte store keeps every device as the spec admits it. -/
theorem stepKeepsInvariant : Obligations.StepKeepsInvariant := fun _ _ hinv h =>
  step_keeps_of_writeByte (P := fun mem => ∀ d ∈ mem, d.wf) (fun _ _ _ _ hm hw => memWrite_wf hm hw) hinv h

/-- Settles O31: a byte store keeps geometry, order and code stores, and no instruction exchanges the register file for
one of the other architecture. -/
theorem stepKeepsGeometryAndCodeStores : Obligations.StepKeepsGeometryAndCodeStores := by
  intro s t h
  refine ⟨step_arch h, ?_⟩
  exact step_keeps_of_writeByte
    (P := fun mem => memGeometry mem = memGeometry s.mem ∧ codeStores mem = codeStores s.mem)
    (fun _ _ _ _ ⟨hg, hc⟩ hw => ⟨(memWrite_geometry hw).trans hg, (memWrite_codeStores hw).trans hc⟩) ⟨rfl, rfl⟩ h

end Sys2Proof.Machine
end

section
/-! Which access succeeds and which fault it reports otherwise (`20_memory.md` R54, R55, R59, R80, `60_exceptions.md`
R229): routing first, then the device's own tests. -/

namespace Sys2Proof.Machine

open Sys2Proof

/-! ### The device's tests -/

/-- The `n` bytes from a routed address on fit the storage exactly when they fit the device's range (R53, R54). -/
theorem offset_add_le_iff {d : Device} {a : Int} (h : d.contains a = true) (n : Nat) :
    d.offset a + n ≤ d.size ↔ a + n ≤ (d.base : Int) + d.size := by
  rw [contains_iff] at h
  unfold Device.offset
  omega

theorem devLoad_of_fits {d : Device} {a : Int} {w : Width} (h : d.offset a + w.bytes ≤ d.size) :
    ∃ u, devLoad d a w = .ok u := ⟨_, devLoad_ok_iff.mpr ⟨h, rfl⟩⟩

theorem devLoad_of_past {d : Device} {a : Int} {w : Width} (h : ¬ d.offset a + w.bytes ≤ d.size) :
    devLoad d a w = .error (.outOfRange a w) := if_pos (Nat.lt_of_not_le h)

theorem devStore_of_rom {d : Device} {a : Int} {w : Width} (v : BitVec w.bits) (hk : d.kind = .rom) :
    devStore d a w v = .error (.readOnlyViolation a w) := if_pos hk

theorem devStore_of_past {d : Device} {a : Int} {w : Width} (v : BitVec w.bits) (hk : d.kind ≠ .rom)
    (h : ¬ d.offset a + w.bytes ≤ d.size) : devStore d a w v = .error (.outOfRange a w) :=
  (if_neg hk).trans (if_pos (Nat.lt_of_not_le h))

theorem devStore_of_fits {d : Device} {a : Int} {w : Width} (v : BitVec w.bits) (hk : d.kind ≠ .rom)
    (h : d.offset a + w.bytes ≤ d.size) : ∃ d', devStore d a w v = .ok d' :=
  ⟨_, (if_neg hk).trans (if_neg (Nat.not_lt.mpr h))⟩

/-! ### The access -/

/-- A load that is routed nowhere is unmapped (R59, R222). -/
theorem memRead_of_route_error {mem : List Device} {a : Int} {f : FaultInfo} (h : route mem a = .error f) (w : Width) :
    memRead mem a w = .error (.unmappedAddress a) := by
  simp only [memRead, h, route_error h]

/-- A store that is routed nowhere is unmapped (R59, R222). -/
theorem memWrite_of_route_error {mem : List Device} {a : Int} {f : FaultInfo} (h : route mem a = .error f) {w : Width}
    (v : BitVec w.bits) : memWrite mem a w v = .error (.unmappedAddress a) := by
  simp only [memWrite, h, route_error h]

/-- A load past the end of its device is out of range (R54, R223). -/
theorem memRead_of_past {mem : List Device} {a : Int} {d : Device} {w : Width} (h : route mem a = .ok d)
    (hend : (d.base : Int) + d.size < a + w.bytes) : memRead mem a w = .error (.outOfRange a w) := by
  have hpast : ¬ d.offset a + w.bytes ≤ d.size := by
    rw [offset_add_le_iff (route_contains h)]; omega
  rw [memRead_of_route h, devLoad_of_past hpast]

/-- A store to a code store is refused whatever its width (R55, R224). -/
theorem memWrite_of_rom {mem : List Device} {a : Int} {d : Device} {w : Width} (v : BitVec w.bits)
    (h : route mem a = .ok d) (hk : d.kind = .rom) : memWrite mem a w v = .error (.readOnlyViolation a w) :=
  memWrite_of_devStore_error h (devStore_of_rom v hk)

/-- A store inside a writable device succeeds (R55). -/
theorem memWrite_of_fits {mem : List Device} {a : Int} {d : Device} {w : Width} (v : BitVec w.bits)
    (h : route mem a = .ok d) (hk : d.kind ≠ .rom) (hfit : d.offset a + w.bytes ≤ d.size) :
    ∃ mem', memWrite mem a w v = .ok mem' := by
  obtain ⟨d', hs⟩ := devStore_of_fits v hk hfit
  exact ⟨_, memWrite_of_devStore_ok h hs⟩

/-- A byte store to a routed address of a writable device succeeds: one byte always fits (R67). -/
theorem writeByte_of_route {mem : List Device} {a : Int} {d : Device} (h : route mem a = .ok d) (hk : d.kind ≠ .rom)
    (b : Byte) : ∃ mem', writeByte mem a b = .ok mem' :=
  memWrite_of_fits (w := .w8) b h hk (offset_lt_of_contains (route_contains h))

/-- Settles O13: the bounds in the address space are the device's own, and each of its tests answers in its turn. -/
theorem accessFaultsInOrder : Obligations.AccessFaultsInOrder := by
  refine fun mem a w v => ⟨fun f h => ⟨memRead_of_route_error h w, memWrite_of_route_error h v⟩, fun d h => ?_⟩
  have hfit := offset_add_le_iff (route_contains h) w.bytes
  refine ⟨memRead_of_past h, fun hin => ?_, memWrite_of_rom v h, fun hk hend => ?_, fun hk hin => ?_⟩
  · rw [memRead_of_route h]
    exact devLoad_of_fits (hfit.mpr hin)
  · exact memWrite_of_devStore_error h (devStore_of_past v hk fun hin => by omega)
  · exact memWrite_of_fits v h hk (hfit.mpr hin)

/-- An address outside the address space is routed nowhere (R33). -/
theorem route_outside {mem : List Device} {a : Int} (h : ¬ (0 ≤ a ∧ a < 0x100000000)) :
    ∃ f, route mem a = .error f := by
  cases hr : route mem a with
  | ok d => exact absurd (route_range hr) h
  | error f => exact ⟨f, rfl⟩

/-- Settles O10: routing tests the address before it looks at the devices. -/
theorem addressesOutsideTheSpaceAreUnmapped : Obligations.AddressesOutsideTheSpaceAreUnmapped := by
  intro mem a w v ha
  obtain ⟨f, hr⟩ := route_outside (mem := mem) (a := a) (by omega)
  exact ⟨memRead_of_route_error hr w, memWrite_of_route_error hr v⟩

/-- Settles O12: the device routed to stands where the routing found it, and only its listed bytes are written. -/
theorem storeChangesOnlyItsBytes : Obligations.StoreChangesOnlyItsBytes := by
  intro mem mem' a w v h
  refine ⟨?_, memWrite_geometry h, fun x hx => readByte_of_memWrite_ne h hx⟩
  obtain ⟨d, d', hr, hs, rfl⟩ := memWrite_ok h
  obtain ⟨hd, before, after, rfl, hbefore⟩ := List.find?_eq_some_iff_append.mp (route_ok_iff.mp hr).2
  refine ⟨before, d, d', after, rfl, replaceRouted_append_cons hd fun e he => ?_, hr, devStore_geometry hs,
    fun i hi => readCell_of_devStore hs hi, fun i hi => readCell_of_devStore_ne hs hi⟩
  simpa using hbefore e he

/-! ### Registration order -/

/-- Two disjoint devices share no address (R80). -/
theorem not_contains_of_disjoint {d e : Device} {a : Int} (h : d.disjoint e) (hd : d.contains a = true) :
    ¬ e.contains a = true := by
  rw [contains_iff] at hd ⊢
  unfold Device.disjoint at h
  omega

theorem disjoint_symm {d e : Device} (h : d.disjoint e) : e.disjoint d := by
  unfold Device.disjoint at h ⊢
  omega

/-- Without overlap an address is routed to whichever device holds it, wherever that device stands in the list (R80). -/
theorem route_ok_iff_of_noOverlap {mem : List Device} (hno : NoOverlap mem) {a : Int} {d : Device} :
    route mem a = .ok d ↔ (0 ≤ a ∧ a < 0x100000000) ∧ d ∈ mem ∧ d.contains a = true := by
  refine ⟨fun h => ⟨route_range h, route_mem h, route_contains h⟩, fun ⟨hspace, hmem, hd⟩ => ?_⟩
  obtain ⟨e, he⟩ : ∃ e, mem.find? (fun e => e.contains a) = some e :=
    Option.isSome_iff_exists.mp (List.find?_isSome.mpr ⟨d, hmem, hd⟩)
  have hroute : route mem a = .ok e := route_ok_iff.mpr ⟨hspace, he⟩
  have hsymm : Std.Symm Device.disjoint := ⟨fun _ _ => disjoint_symm⟩
  have hed : e = d := by
    by_contra hne
    exact not_contains_of_disjoint (hno.forall (route_mem hroute) hmem hne) (route_contains hroute) hd
  rwa [← hed]

/-- Settles O14: membership and non-overlap do not depend on the order, so neither does routing. -/
theorem noOverlapMakesOrderIrrelevant : Obligations.NoOverlapMakesOrderIrrelevant := by
  intro mem mem' hno hperm a
  have hno' : NoOverlap mem' := hperm.pairwise hno fun h => disjoint_symm h
  have hiff : ∀ d, route mem' a = .ok d ↔ route mem a = .ok d := fun d => by
    rw [route_ok_iff_of_noOverlap hno, route_ok_iff_of_noOverlap hno', hperm.mem_iff]
  cases hr : route mem a with
  | ok d => exact (hiff d).mpr hr
  | error f =>
    cases hr' : route mem' a with
    | ok d => rw [(hiff d).mp hr'] at hr; cases hr
    | error g => rw [route_error hr, route_error hr']

end Sys2Proof.Machine
end

section
/-! Decode and encode (`30_encoding.md` R103 to R110): what each format decodes to, that decoding inverts encoding, and
which opcodes are in no table. -/

namespace Sys2Proof.Machine

open Sys2Proof

/-! ### The two decoders -/

/-- A tape-machine byte decodes exactly to what the table lists it with (R104, R105). -/
theorem decode_tmB_ok {b : Byte} {i : Instr} (h : decode (.tmB b) = .ok i) : (b, i) ∈ tmOptable := by
  simp only [decode] at h
  cases hl : tmOptable.lookup b with
  | none => simp [hl] at h
  | some j =>
    obtain rfl : j = i := by simpa [hl] using h
    obtain ⟨before, after, htable, -⟩ := List.lookup_eq_some_iff.mp hl
    simp [htable]

/-- A tape-machine byte is illegal exactly when the table has no row for it (R109). -/
theorem decode_tmB_error_iff {b : Byte} : (∃ e, decode (.tmB b) = .error e) ↔ b ∉ tmOptable.map Prod.fst := by
  have hlookup : tmOptable.lookup b = none ↔ b ∉ tmOptable.map Prod.fst := by
    simp only [List.lookup_eq_none_iff, List.mem_map, bne_iff_ne, not_exists, not_and, ne_comm (a := b), ne_eq]
  rw [← hlookup]
  cases hl : tmOptable.lookup b <;> simp [decode, hl]

/-- Every row of the tape machine's table is an instruction's encoding (R105). -/
theorem encode_of_mem_tmOptable : ∀ row ∈ tmOptable, encode row.2 = .tmB row.1 := by decide

/-- The load/store decoder finds its one opcode or none (R106). -/
theorem decode_lsW (w : BitVec 32) :
    decode (.lsW w) =
      if opcodeOf (.lsW w) = 0x01#8 then .ok (.inc (indexOf w)) else .error (.illegalOpcode (opcodeOf (.lsW w))) := by
  by_cases h : opcodeOf (.lsW w) = 0x01#8
  · simp [decode, lsOptable, h]
  · have hb : (opcodeOf (.lsW w) == 0x01#8) = false := by simpa using h
    simp [decode, lsOptable, List.lookup_cons, hb, h]

/-- A load/store word decodes only to `INC` of its index field (R106, R107). -/
theorem decode_lsW_ok {w : BitVec 32} {i : Instr} (h : decode (.lsW w) = .ok i) :
    opcodeOf (.lsW w) = 0x01#8 ∧ i = .inc (indexOf w) := by
  rw [decode_lsW] at h
  split_ifs at h with hop
  exact ⟨hop, (Except.ok.inj h).symm⟩

/-- The opcode of a load/store word is its low byte (R103). -/
theorem toNat_opcodeOf_lsW (w : BitVec 32) : (opcodeOf (.lsW w)).toNat = w.toNat % 256 := by
  simp [opcodeOf, BitVec.extractLsb'_toNat]

/-! ### Decoding inverts encoding -/

/-- The word of `INC Rn`, as the spec writes it (R106, R113). -/
def incWord (n : RegIndex) : BitVec 32 := 0x00000001#32 ||| (n.setWidth 32 <<< 8)

theorem encode_inc (n : RegIndex) : encode (.inc n) = .lsW (incWord n) := rfl

/-- Bit `j` of the word of `INC Rn`: the opcode's single 1 at bit 0, the index in bits 8 to 11. -/
theorem getLsbD_incWord (n : RegIndex) {j : Nat} (hj : j < 32) :
    (incWord n).getLsbD j = (decide (j = 0) || !decide (j < 8) && n.getLsbD (j - 8)) := by
  simp [incWord, hj]

theorem opcodeOf_incWord (n : RegIndex) : opcodeOf (.lsW (incWord n)) = 0x01#8 := by
  apply BitVec.eq_of_getLsbD_eq
  intro j hj
  simp [opcodeOf, getLsbD_incWord n (show j < 32 by omega), hj]

theorem indexOf_incWord (n : RegIndex) : indexOf (incWord n) = n := by
  apply BitVec.eq_of_getLsbD_eq
  intro j hj
  simp [indexOf, getLsbD_incWord n (show 8 + j < 32 by omega), hj]

/-- A word with the opcode of `INC` is that instruction's word, up to the ignored bits (R108): below bit 8 both are the
opcode, in bits 8 to 11 the index, above them zero. -/
theorem incWord_indexOf {w : BitVec 32} (h : opcodeOf (.lsW w) = 0x01#8) : incWord (indexOf w) = w &&& 0xFFF#32 := by
  apply BitVec.eq_of_getLsbD_eq
  intro j hj
  have hmask : (0xFFF#32).getLsbD j = decide (j < 12) := by
    interval_cases j <;> rfl
  rw [getLsbD_incWord _ hj, BitVec.getLsbD_and, hmask]
  by_cases hlow : j < 8
  · have hopcode : (0x01#8).getLsbD j = w.getLsbD j := by rw [← h]; simp [opcodeOf, hlow]
    have hmasked : j < 12 := by omega
    simp [hlow, hmasked, ← hopcode]
  · have hj0 : j ≠ 0 := by omega
    by_cases hindex : j < 12
    · have hfield : j - 8 < 4 ∧ 8 + (j - 8) = j := by omega
      simp [hlow, hj0, hindex, indexOf, hfield]
    · have hfield : ¬ j - 8 < 4 := by omega
      simp [hlow, hj0, hindex, indexOf, hfield]

/-- Decoding inverts encoding: the tape machine's rows by lookup, `INC` by its two fields. -/
theorem decode_encode (i : Instr) : decode (encode i) = .ok i := by
  cases i with
  | inc n => rw [encode_inc, decode_lsW, if_pos (opcodeOf_incWord n), indexOf_incWord]
  | pinc | pdec | dinc | ddec | jzf | jnzb | out | halt => rfl

/-- A tape-machine byte is the encoding of what it decodes to (R105). -/
theorem encode_of_decode_tmB {b : Byte} {i : Instr} (h : decode (.tmB b) = .ok i) : encode i = .tmB b :=
  encode_of_mem_tmOptable (b, i) (decode_tmB_ok h)

/-- A load/store word is the encoding of what it decodes to, up to the ignored bits (R108). -/
theorem encode_of_decode_lsW {w : BitVec 32} {i : Instr} (h : decode (.lsW w) = .ok i) :
    encode i = .lsW (w &&& 0xFFF#32) := by
  obtain ⟨hop, rfl⟩ := decode_lsW_ok h
  rw [encode_inc, incWord_indexOf hop]

/-! ### Formats and bytes -/

/-- The architecture whose instructions have a raw word's format (R101, R102). -/
def formatArch : RawWord → Arch
  | .tmB _ => .tm
  | .lsW _ => .ls

/-- An instruction's encoding has the format of its architecture (R105, R106). -/
@[simp] theorem formatArch_encode (i : Instr) : formatArch (encode i) = i.arch := by cases i <;> rfl

/-- Only an instruction of the format's architecture is decoded (R104). -/
theorem arch_of_decode {raw : RawWord} {i : Instr} (h : decode raw = .ok i) : i.arch = formatArch raw := by
  cases raw with
  | tmB b => rw [← formatArch_encode, encode_of_decode_tmB h]
  | lsW w => rw [← formatArch_encode, encode_of_decode_lsW h]; rfl

/-- The bytes of a raw word in address order read back as the word (R63, R64). -/
theorem rawOfBytes_toBytes (raw : RawWord) : rawOfBytes (formatArch raw) raw.toBytes = .ok raw := by
  cases raw with
  | tmB b => exact congrArg (fun v => Except.ok (RawWord.tmB v)) (ofNat_leNat_leBytes .w8 b)
  | lsW w => exact congrArg (fun v => Except.ok (RawWord.lsW v)) (ofNat_leNat_leBytes .w32 w)

/-- Settles O21: the bytes of an encoding are its raw word's, decoding inverts encoding, and each decoder gives only
instructions whose encoding is the word it read. -/
theorem decodeAndEncodeAgree : Obligations.DecodeAndEncodeAgree := by
  refine ⟨fun i => ⟨decode_encode i, ?_⟩, fun _ _ => encode_of_decode_tmB, fun _ _ => encode_of_decode_lsW⟩
  rw [decodeBytes, encodeBytes, ← formatArch_encode, rawOfBytes_toBytes]
  exact decode_encode i

/-- Settles O22: the table's keys are the eight listed bytes, and the load/store decoder's one opcode is the word's low
byte 1. -/
theorem unlistedOpcodesAreIllegal : Obligations.UnlistedOpcodesAreIllegal := by
  refine ⟨fun b => ?_, fun w => ?_⟩
  · rw [decode_tmB_error_iff, not_iff_not]
    simp only [tmOptable, openBracket, closeBracket, tmOpHalt, List.map_cons, List.map_nil, List.mem_cons]
    tauto
  · have hop : opcodeOf (.lsW w) = 0x01#8 ↔ w.toNat % 256 = 1 := by
      rw [← BitVec.toNat_inj, toNat_opcodeOf_lsW]; rfl
    rw [decode_lsW, Ne, ← hop]
    split_ifs with h <;> simp [h]

/-- Settles O20: each word is evaluated by the decoder. -/
theorem familyWordsDecode : Obligations.FamilyWordsDecode := by
  refine ⟨?_, ?_, ?_, ?_, ?_, ?_⟩ <;> decide

end Sys2Proof.Machine
end

section
/-! Fetch, decode and the step (`41_core_cycle.md` R160 to R166): what a fetch reads, what a running core does with it, and
why an instruction put at `pc` is the one that runs next. -/

namespace Sys2Proof.Machine

open Sys2Proof

/-! ### Fetch -/

/-- The tape machine fetches a byte at `pc` (R101, R161). -/
theorem fetch_of_arch_tm {s : State} (h : s.arch = .tm) :
    fetch s = (memRead s.mem (regRead s.pc) .w8).map .tmB := by
  simp only [fetch, h]
  cases memRead s.mem (regRead s.pc) .w8 <;> rfl

/-- The load/store machine fetches a 32-bit word at `pc` (R102, R161). -/
theorem fetch_of_arch_ls {s : State} (h : s.arch = .ls) :
    fetch s = (memRead s.mem (regRead s.pc) .w32).map .lsW := by
  simp only [fetch, h]
  cases memRead s.mem (regRead s.pc) .w32 <;> rfl

/-- A fetch faults exactly as its load does (R161). -/
theorem fetch_error_iff {s : State} {f : FaultInfo} :
    fetch s = .error f ↔ memRead s.mem (regRead s.pc) s.arch.instrWidth = .error f := by
  cases ha : s.arch with
  | tm => rw [fetch_of_arch_tm ha, Arch.instrWidth]; cases memRead s.mem (regRead s.pc) .w8 <;> simp [Except.map]
  | ls => rw [fetch_of_arch_ls ha, Arch.instrWidth]; cases memRead s.mem (regRead s.pc) .w32 <;> simp [Except.map]

/-- What is fetched has the format of the core's architecture (R100). -/
theorem formatArch_of_fetch {s : State} {raw : RawWord} (h : fetch s = .ok raw) : formatArch raw = s.arch := by
  cases ha : s.arch with
  | tm =>
    rw [fetch_of_arch_tm ha] at h
    cases hm : memRead s.mem (regRead s.pc) .w8 with
    | error f => simp [hm, Except.map] at h
    | ok b =>
      obtain rfl : .tmB b = raw := by simpa [hm, Except.map] using h
      rfl
  | ls =>
    rw [fetch_of_arch_ls ha] at h
    cases hm : memRead s.mem (regRead s.pc) .w32 with
    | error f => simp [hm, Except.map] at h
    | ok w =>
      obtain rfl : .lsW w = raw := by simpa [hm, Except.map] using h
      rfl

/-- A fetch depends on the architecture, `pc` and memory alone (R161). -/
theorem fetch_congr {s t : State} (ha : t.arch = s.arch) (hpc : t.pc = s.pc) (hm : t.mem = s.mem) :
    fetch t = fetch s := by
  simp only [fetch, ha, hpc, hm]

/-- Bytes that stand at `pc` are fetched as the raw word they form (R64, R161). -/
theorem fetch_of_bytes {s : State} {bs : List Byte} {raw : RawWord} (hraw : rawOfBytes s.arch bs = .ok raw)
    (hmem : memRead s.mem (regRead s.pc) s.arch.instrWidth = .ok (BitVec.ofNat s.arch.instrWidth.bits (leNat bs))) :
    fetch s = .ok raw := by
  unfold rawOfBytes at hraw
  split_ifs at hraw
  obtain rfl := Except.ok.inj hraw
  cases ha : s.arch with
  | tm =>
    rw [ha] at hmem
    rw [fetch_of_arch_tm ha]
    exact congrArg (Except.map RawWord.tmB) hmem
  | ls =>
    rw [ha] at hmem
    rw [fetch_of_arch_ls ha]
    exact congrArg (Except.map RawWord.lsW) hmem

/-- A raw word stored at `pc` is what the next fetch reads (R77). -/
theorem fetch_of_storeRaw {s : State} {raw : RawWord} {mem' : List Device} (ha : formatArch raw = s.arch)
    (h : storeRaw s.mem (regRead s.pc) raw = .ok mem') : fetch { s with mem := mem' } = .ok raw := by
  cases raw with
  | tmB b =>
    rw [fetch_of_arch_tm (s := { s with mem := mem' }) ha.symm]
    exact congrArg (Except.map RawWord.tmB) (memRead_of_memWrite h)
  | lsW w =>
    rw [fetch_of_arch_ls (s := { s with mem := mem' }) ha.symm]
    exact congrArg (Except.map RawWord.lsW) (memRead_of_memWrite h)

/-! ### Fetch and decode -/

theorem fetchDecode_of_fetch_error {s : State} {f : FaultInfo} (h : fetch s = .error f) :
    fetchDecode s = .error f := by
  simp only [fetchDecode, h]

theorem fetchDecode_of_decode_error {s : State} {raw : RawWord} {e : DecodeError} (h : fetch s = .ok raw)
    (hd : decode raw = .error e) : fetchDecode s = .error (.illegalOpcode s.pc raw) := by
  simp only [fetchDecode, h, hd]

theorem fetchDecode_of_decode_ok {s : State} {raw : RawWord} {i : Instr} (h : fetch s = .ok raw)
    (hd : decode raw = .ok i) : fetchDecode s = .ok i := by
  simp only [fetchDecode, h, hd]

/-- The two ways fetch and decode fail: the fetch faults, or what it read is no instruction (R229). -/
theorem fetchDecode_error {s : State} {f : FaultInfo} (h : fetchDecode s = .error f) :
    fetch s = .error f ∨ ∃ raw e, fetch s = .ok raw ∧ decode raw = .error e ∧ f = .illegalOpcode s.pc raw := by
  cases hf : fetch s with
  | error g =>
    rw [fetchDecode_of_fetch_error hf] at h
    exact .inl (congrArg Except.error (Except.error.inj h))
  | ok raw =>
    cases hd : decode raw with
    | ok i => simp [fetchDecode_of_decode_ok hf hd] at h
    | error e =>
      rw [fetchDecode_of_decode_error hf hd] at h
      exact .inr ⟨raw, e, rfl, hd, (Except.error.inj h).symm⟩

/-- A fetched and decoded instruction is one of the core's architecture (R104). -/
theorem arch_of_fetchDecode {s : State} {i : Instr} (h : fetchDecode s = .ok i) : i.arch = s.arch := by
  obtain ⟨raw, hf, hd⟩ := fetchDecode_ok h
  rw [arch_of_decode hd, formatArch_of_fetch hf]

/-- Fetch and decode depend on the architecture, `pc` and memory alone. -/
theorem fetchDecode_congr {s t : State} (ha : t.arch = s.arch) (hpc : t.pc = s.pc) (hm : t.mem = s.mem) :
    fetchDecode t = fetchDecode s := by
  simp only [fetchDecode, fetch_congr ha hpc hm, hpc]

/-! ### The step of a running core -/

theorem step_of_fetchDecode_error {s : State} {f : FaultInfo} (hs : s.status = .running)
    (h : fetchDecode s = .error f) : step s = .next (takeFault f s) := by
  simp only [step, hs, h]

theorem step_of_fetchDecode_ok {s : State} {i : Instr} (hs : s.status = .running) (h : fetchDecode s = .ok i) :
    step s = exec i s := by
  simp only [step, hs, h]

/-- A running core executes the instruction its `pc` fetches (R160). -/
theorem step_of_fetch {s : State} {raw : RawWord} {i : Instr} (hs : s.status = .running) (hf : fetch s = .ok raw)
    (hd : decode raw = .ok i) : step s = exec i s :=
  step_of_fetchDecode_ok hs (fetchDecode_of_decode_ok hf hd)

/-- Settles O23. -/
theorem stepRunsDecodedInstruction : Obligations.StepRunsDecodedInstruction := fun _ _ _ => step_of_fetch

/-- Settles O27: `step` looks at the status first. -/
theorem deadCoreTakesNoStep : Obligations.DeadCoreTakesNoStep := by
  refine fun s => ⟨fun h => ?_, fun f h => ?_⟩ <;> simp only [step, h]

/-- Settles O24: the stored word has the core's own format, so the next fetch reads it back whole, and decoding inverts
encoding. -/
theorem storedInstructionRunsNext : Obligations.StoredInstructionRunsNext := by
  intro s i mem' hs hwf hstore
  have harch : formatArch (encode i) = s.arch := by simpa [Instr.wellFormed] using hwf
  exact step_of_fetch hs (fetch_of_storeRaw harch hstore) (decode_encode i)

/-- Settles O26: a load at an unmapped `pc`, or past the end of its device, faults as the device list says, and the fault
is taken on the state as it was. -/
theorem fetchAndDecodeFaultsAreTaken : Obligations.FetchAndDecodeFaultsAreTaken := by
  intro s hs
  refine ⟨fun f hr => ?_, fun d ha hr hend => ?_, fun raw e hf hd => ?_⟩
  · have hf := fetch_error_iff.mpr (memRead_of_route_error hr s.arch.instrWidth)
    exact step_of_fetchDecode_error hs (fetchDecode_of_fetch_error hf)
  · have hload : memRead s.mem (regRead s.pc) s.arch.instrWidth = .error (.outOfRange (regRead s.pc) .w32) := by
      rw [ha]; exact memRead_of_past hr hend
    exact step_of_fetchDecode_error hs (fetchDecode_of_fetch_error (fetch_error_iff.mpr hload))
  · exact step_of_fetchDecode_error hs (fetchDecode_of_decode_error hf hd)

end Sys2Proof.Machine
end

section
/-! The host's side (`20_memory.md` R50 to R56, R79, `70_reset_and_hazards.md` R260): requests, device construction,
`load_data` and the core reset. -/

namespace Sys2Proof.Machine

open Sys2Proof

/-! ### Requests -/

/-- A request that breaks an invariant is refused: data on a load, none on a store, or too much of it (R51). -/
theorem access_of_not_wellFormed (mem : List Device) {q : Request} (h : q.wellFormed = false) :
    access mem q = .error .illFormedRequest := by
  obtain ⟨a, w, dir, data⟩ := q
  cases dir with
  | load =>
    cases data with
    | none => cases h
    | some v => rfl
  | store =>
    cases data with
    | none => rfl
    | some v => exact if_neg (of_decide_eq_false h)

/-- Settles O17: a value of the width passes the MMU's test, and reducing it to the width changes nothing. -/
theorem requestsAreLoadsOrStores : Obligations.RequestsAreLoadsOrStores := by
  refine fun mem a w => ⟨fun q => access_of_not_wellFormed mem, fun v h => ?_, fun f h => ?_, fun v mem' h => ?_,
    fun v f h => ?_⟩
  · simp only [access, h]
  · simp only [access, h]
  · simp only [access, v.isLt, if_true, BitVec.ofNat_toNat, BitVec.setWidth_eq, h]
  · simp only [access, v.isLt, if_true, BitVec.ofNat_toNat, BitVec.setWidth_eq, h]

/-! ### Device construction -/

/-- A store built from bytes that fit it is as the spec admits it and holds them, with zeros after them (R35, R56). -/
theorem buildStore_of_fits (kind : DeviceKind) {base size : Nat} {init : List Byte} (hrange : base + size ≤ 4294967296)
    (hlen : init.length ≤ size) :
    ∃ d, buildStore kind base size init = .ok d ∧ d.wf ∧ d.geometry = (kind, base, size) ∧
      ∀ i, Memory.readCell d.bytes i = init.getD i 0 := by
  have hwf : Memory.wf (Memory.writeCells [] 0 init) := writeCells_wf _ _ ⟨.nil, nofun⟩
  refine ⟨_, if_pos hrange, ⟨hwf, writeCells_bound nofun (by simpa using hlen), hrange⟩, rfl, fun i => ?_⟩
  rw [readCell_writeCells, readCell_nil]
  by_cases hi : i < init.length
  · rw [dif_pos ⟨Nat.zero_le i, hi⟩, List.getD_eq_getElem _ _ hi]; rfl
  · rw [dif_neg fun h => hi h.2, List.getD_eq_default _ _ (Nat.le_of_not_lt hi)]

/-- A range past the end of the address space is refused (R53). -/
theorem buildStore_of_past (kind : DeviceKind) {base size : Nat} (init : List Byte)
    (hrange : 4294967296 < base + size) : buildStore kind base size init = .error .rangePastAddressSpace :=
  if_neg (Nat.not_le.mpr hrange)

theorem buildDevice_rom {base size : Nat} {bs : List Byte} (h : bs.length ≤ size) :
    buildDevice ⟨.rom bs, base, size⟩ = buildStore .rom base size bs := if_pos h

theorem buildDevice_ram {base size : Nat} {bs : List Byte} (h : bs.length = size) :
    buildDevice ⟨.ram bs, base, size⟩ = buildStore .ram base size bs := if_pos h

/-- Settles O18: each kind is built as a store of its bytes: the image, the RAM's, none. -/
theorem builtDevicesHoldTheirBytes : Obligations.BuiltDevicesHoldTheirBytes := by
  refine fun base size bs hrange => ⟨fun hlen => ?_, fun hlen => ?_, ?_⟩
  · obtain ⟨d, hd, hwf, hgeom, hbytes⟩ := buildStore_of_fits .rom hrange hlen
    exact ⟨d, (buildDevice_rom hlen).trans hd, hwf, hgeom, fun i _ => hbytes i⟩
  · obtain ⟨d, hd, hwf, hgeom, hbytes⟩ := buildStore_of_fits .ram hrange hlen.le
    exact ⟨d, (buildDevice_ram hlen).trans hd, hwf, hgeom, fun i hi => (hbytes i).trans (List.getD_eq_getElem _ _ hi)⟩
  · obtain ⟨d, hd, hwf, hgeom, hbytes⟩ := buildStore_of_fits .zero (init := []) hrange (Nat.zero_le size)
    exact ⟨d, hd, hwf, hgeom, hbytes⟩

/-- Settles O19: the length is tested before the range, and both other kinds are refused at once. -/
theorem inadmissibleDevicesRefused : Obligations.InadmissibleDevicesRefused := by
  refine fun base size bs => ⟨fun hlong => if_neg (Nat.not_le.mpr hlong), fun hne => if_neg hne,
    fun hrange => ⟨fun hlen => ?_, fun hlen => ?_, buildStore_of_past .zero [] hrange⟩, rfl, rfl⟩
  · rw [buildDevice_rom hlen, buildStore_of_past .rom bs hrange]
  · rw [buildDevice_ram hlen, buildStore_of_past .ram bs hrange]

/-! ### Loading data -/

theorem loadData_cons_ok {mem mem₁ : List Device} {a : Int} {b : Byte} (bs : List Byte)
    (h : writeByte mem a b = .ok mem₁) : loadData mem a (b :: bs) = loadData mem₁ (a + 1) bs := by
  simp only [loadData, h]

theorem loadData_cons_error {mem : List Device} {a : Int} {b : Byte} {f : FaultInfo} (bs : List Byte)
    (h : writeByte mem a b = .error f) : loadData mem a (b :: bs) = (mem, some f) := by
  simp only [loadData, h]

/-- A load of data that went through put its first byte and then the rest (R79). -/
theorem loadData_cons_none {mem mem' : List Device} {a : Int} {b : Byte} {bs : List Byte}
    (h : loadData mem a (b :: bs) = (mem', none)) :
    ∃ mem₁, writeByte mem a b = .ok mem₁ ∧ loadData mem₁ (a + 1) bs = (mem', none) := by
  cases hw : writeByte mem a b with
  | error f => simp [loadData_cons_error bs hw] at h
  | ok mem₁ => exact ⟨mem₁, rfl, (loadData_cons_ok bs hw).symm.trans h⟩

/-- Data that was loaded leaves the byte at every address outside its own (R79). -/
theorem readByte_of_loadData_ne {mem mem' : List Device} {a x : Int} {bs : List Byte}
    (h : loadData mem a bs = (mem', none)) (hx : x < a ∨ a + bs.length ≤ x) : readByte mem' x = readByte mem x := by
  induction bs generalizing mem a with
  | nil => cases h; rfl
  | cons b bs ih =>
    obtain ⟨mem₁, hw, hrest⟩ := loadData_cons_none h
    rw [List.length_cons, Nat.cast_succ] at hx
    rw [ih hrest (by omega), readByte_of_writeByte_ne hw (by omega)]

/-- Data that was loaded stands at its addresses (R79): the first byte is written first and no later one moves it. -/
theorem readByte_of_loadData {mem mem' : List Device} {a : Int} {bs : List Byte}
    (h : loadData mem a bs = (mem', none)) {i : Nat} (hi : i < bs.length) : readByte mem' (a + i) = .ok bs[i] := by
  induction bs generalizing mem a i with
  | nil => cases hi
  | cons b bs ih =>
    obtain ⟨mem₁, hw, hrest⟩ := loadData_cons_none h
    cases i with
    | zero =>
      rw [Nat.cast_zero, add_zero, readByte_of_loadData_ne hrest (by omega)]
      exact readByte_of_writeByte hw
    | succ i =>
      have haddr : a + (i + 1 : Nat) = a + 1 + i := by omega
      rw [haddr]
      exact ih hrest (by simpa using hi)

/-- Loading data keeps geometry and registration order, whether it goes through or not (R20). -/
theorem loadData_geometry (mem : List Device) (a : Int) (bs : List Byte) :
    memGeometry (loadData mem a bs).1 = memGeometry mem := by
  induction bs generalizing mem a with
  | nil => rfl
  | cons b bs ih =>
    cases hw : writeByte mem a b with
    | error f => rw [loadData_cons_error bs hw]
    | ok mem₁ => rw [loadData_cons_ok bs hw, ih, memWrite_geometry hw]

/-- Settles O15. -/
theorem loadDataWritesEveryByte : Obligations.LoadDataWritesEveryByte := by
  refine fun mem mem' a bs h => ⟨fun i hi => readByte_of_loadData h hi, fun x hx => readByte_of_loadData_ne h hx, ?_⟩
  have hgeom := loadData_geometry mem a bs
  rwa [h] at hgeom

/-- Settles O16, by induction on the bytes: the first byte faults, or it is written and the rest stops later. -/
theorem loadDataStopsAtTheFaultingByte : Obligations.LoadDataStopsAtTheFaultingByte := by
  intro mem mem' a bs f h
  induction bs generalizing mem a with
  | nil => cases h
  | cons b bs ih =>
    cases hw : writeByte mem a b with
    | error g =>
      rw [loadData_cons_error bs hw] at h
      cases h
      exact ⟨0, by simp, rfl, by simpa using hw⟩
    | ok mem₁ =>
      rw [loadData_cons_ok bs hw] at h
      obtain ⟨i, hi, hwritten, hfault⟩ := ih mem₁ (a + 1) h
      have haddr : a + (i + 1 : Nat) = a + 1 + i := by omega
      refine ⟨i + 1, by simpa using hi, ?_, ?_⟩
      · rw [List.take_succ_cons, loadData_cons_ok _ hw, hwritten]
      · rw [haddr]; exact hfault

/-! ### Core reset -/

/-- After a core reset every declared register reads its reset value (R39). -/
theorem get?_reset (v : Word) {arch : Arch} {name : RegName} (h : name ∈ arch.regNames) :
    (RegFile.reset v arch).get? name = some (if arch = .tm ∧ name = .dp then v else 0) := by
  cases arch with
  | tm => obtain rfl | rfl := mem_regNames_tm.mp h <;> rfl
  | ls =>
    cases name with
    | dp => exact absurd rfl (mem_regNames_ls.mp h)
    | r n => simp [RegFile.reset, RegFile.get?, LsRegs.getR, Arch.resetValue]
    | sp | lr | pc => rfl

@[simp] theorem arch_reset (v : Word) (arch : Arch) : (RegFile.reset v arch).arch = arch := by cases arch <;> rfl

/-- Settles O28. -/
theorem coreResetGivesResetValues : Obligations.CoreResetGivesResetValues := fun arch v _ =>
  ⟨arch_reset v arch, fun _ h => get?_reset v h, rfl, rfl, rfl⟩

/-- Settles O29: both devices hold no listed byte and end inside the address space. -/
theorem resetMeetsInvariant : Obligations.ResetMeetsInvariant := by
  intro d hd
  refine ⟨reset_memory_wf d hd, ?_⟩
  revert d
  decide

/-- Settles O37: each code is its constructor's, and only the fault statuses have one that is not 0. -/
theorem faultCodesFollowTheTaxonomy : Obligations.FaultCodesFollowTheTaxonomy := by
  refine ⟨fun _ _ => rfl, fun _ => rfl, fun _ _ => rfl, fun _ _ => rfl, fun _ => rfl, fun st => ?_⟩
  cases st with
  | running | halted => simp [Status.faultCode]
  | faulted f => cases f <;> simp [Status.faultCode, FaultInfo.code]

end Sys2Proof.Machine
end

section
/-! Bracket scans (`41_core_cycle.md` R167 to R169): a scan passes over bytes that keep its depth positive (a
`ScanPrefix`), every scan comes to a match or leaves mapped memory, and the loop's bound on the reads never ends it. -/

namespace Sys2Proof.Machine

open Sys2Proof

/-! ### The depth -/

theorem opens_ne_closes (dir : ScanDir) : dir.opens ≠ dir.closes := by cases dir <;> decide

@[simp] theorem balance_nil (dir : ScanDir) : dir.balance [] = 1 := rfl

/-- One more byte moves the balance by what kind of bracket it is. -/
theorem balance_append_singleton (dir : ScanDir) (bs : List Byte) (b : Byte) :
    dir.balance (bs ++ [b]) =
      dir.balance bs + (if b = dir.opens then 1 else 0) - (if b = dir.closes then 1 else 0) := by
  simp only [ScanDir.balance, List.count_append, List.count_singleton, beq_iff_eq]
  split_ifs <;> push_cast <;> omega

/-- The loop's depth and the balance take the same step (R167, R168). -/
theorem nextDepth_eq_balance (dir : ScanDir) {bs : List Byte} (b : Byte) (h : 0 < dir.balance bs) :
    dir.nextDepth (dir.balance bs).toNat b = (dir.balance (bs ++ [b])).toNat := by
  rw [balance_append_singleton, ScanDir.nextDepth]
  by_cases hopen : b = dir.opens
  · have hclose : b ≠ dir.closes := hopen ▸ opens_ne_closes dir
    simp only [hopen, if_true, opens_ne_closes dir, if_false]
    omega
  · by_cases hclose : b = dir.closes
    · simp only [hclose, (opens_ne_closes dir).symm, if_true, if_false]
      omega
    · simp only [hopen, hclose, if_false]
      omega

/-- The balance falls by at most one at a time, so from a positive one it reaches 0 before it is negative. -/
theorem balance_append_singleton_nonneg (dir : ScanDir) {bs : List Byte} (b : Byte) (h : 0 < dir.balance bs) :
    0 ≤ dir.balance (bs ++ [b]) := by
  rw [balance_append_singleton]
  split_ifs <;> omega

/-! ### The bytes a scan has passed -/

/-- Before its first read a scan has passed no byte. -/
theorem scanPrefix_nil (mem : List Device) (dir : ScanDir) (a : Int) : ScanPrefix mem dir a [] :=
  ⟨nofun, fun j _ => by simp⟩

theorem scanPrefix_balance_pos {mem : List Device} {dir : ScanDir} {a : Int} {bs : List Byte}
    (h : ScanPrefix mem dir a bs) : 0 < dir.balance bs := by
  obtain ⟨-, hpos⟩ := h
  simpa using hpos bs.length le_rfl

/-- A scan passes the next byte exactly when that byte is there and keeps the depth positive. -/
theorem scanPrefix_append_singleton {mem : List Device} {dir : ScanDir} {a : Int} {bs : List Byte} {b : Byte} :
    ScanPrefix mem dir a (bs ++ [b]) ↔
      ScanPrefix mem dir a bs ∧ readByte mem (dir.addr a (bs.length + 1)) = .ok b ∧ 0 < dir.balance (bs ++ [b]) := by
  constructor
  · intro h
    have hbal := scanPrefix_balance_pos h
    obtain ⟨hread, hpos⟩ := h
    refine ⟨⟨fun j hj => ?_, fun j hj => ?_⟩, ?_, hbal⟩
    · rw [hread j (by simp; omega), List.getElem_append_left hj]
    · simpa [List.take_append_of_le_length hj] using hpos j (by simp; omega)
    · simpa using hread bs.length (by simp)
  · rintro ⟨⟨hread, hpos⟩, hb, hbal⟩
    refine ⟨fun j hj => ?_, fun j hj => ?_⟩
    · rw [List.length_append, List.length_singleton] at hj
      by_cases hin : j < bs.length
      · simpa [hin] using hread j hin
      · obtain rfl : j = bs.length := by omega
        simpa using hb
    · rw [List.length_append, List.length_singleton] at hj
      by_cases hin : j ≤ bs.length
      · simpa [List.take_append_of_le_length hin] using hpos j hin
      · rwa [List.take_of_length_le (by simp; omega)]

/-- Addresses that are read at distances 1 and `n` lie both in the address space, so `n` is at most `2^32` (R169). -/
theorem distance_le {mem : List Device} {dir : ScanDir} {a : Int} {n : Nat} {b c : Byte}
    (h1 : readByte mem (dir.addr a 1) = .ok b) (hn : readByte mem (dir.addr a n) = .ok c) : n ≤ 0x100000000 := by
  have hspace : ∀ {x : Int} {e : Byte}, readByte mem x = .ok e → 0 ≤ x ∧ x < 0x100000000 := fun {x e} hx => by
    by_contra hout
    rw [readByte_outside hout] at hx
    cases hx
  have hfirst := hspace h1
  have hlast := hspace hn
  cases dir <;> simp only [ScanDir.addr] at hfirst hlast <;> omega

/-- A scan passes no more bytes than the address space has (R169). -/
theorem scanPrefix_length_le {mem : List Device} {dir : ScanDir} {a : Int} {bs : List Byte}
    (h : ScanPrefix mem dir a bs) : bs.length ≤ 0x100000000 := by
  obtain ⟨hread, -⟩ := h
  cases hl : bs.length with
  | zero => omega
  | succ n => exact distance_le (hread 0 (by omega)) (hread n (by omega))

/-! ### The loop -/

theorem scanFrom_of_read_error {mem : List Device} {dir : ScanDir} {a : Int} {k : Nat}
    (h : readByte mem (dir.addr a (k + 1)) = .error (.unmappedAddress (dir.addr a (k + 1)))) (fuel depth : Nat) :
    scanFrom mem dir a fuel k depth = .error (.unmappedAddress (dir.addr a (k + 1))) := by
  cases fuel with
  | zero => rfl
  | succ fuel => simp only [scanFrom, h]

theorem scanFrom_of_closed {mem : List Device} {dir : ScanDir} {a : Int} {k depth : Nat} {b : Byte}
    (h : readByte mem (dir.addr a (k + 1)) = .ok b) (hd : dir.nextDepth depth b = 0) (fuel : Nat) :
    scanFrom mem dir a (fuel + 1) k depth = .ok (k + 1) := by
  simp only [scanFrom, h, hd]

theorem scanFrom_of_open {mem : List Device} {dir : ScanDir} {a : Int} {k depth : Nat} {b : Byte}
    (h : readByte mem (dir.addr a (k + 1)) = .ok b) (hd : 0 < dir.nextDepth depth b) (fuel : Nat) :
    scanFrom mem dir a (fuel + 1) k depth = scanFrom mem dir a fuel (k + 1) (dir.nextDepth depth b) := by
  obtain ⟨d, hd⟩ := Nat.exists_eq_add_one_of_ne_zero hd.ne'
  simp only [scanFrom, h, hd]

/-- Behind the bytes it has passed a scan stands at their balance, with that many fewer reads left. -/
theorem scan_of_prefix {mem : List Device} {dir : ScanDir} {a : Int} {bs : List Byte} (h : ScanPrefix mem dir a bs)
    {fuel : Nat} (hfuel : fuel + bs.length = 0x100000000) :
    scan mem dir a = scanFrom mem dir a fuel bs.length (dir.balance bs).toNat := by
  induction bs using List.reverseRecOn generalizing fuel with
  | nil =>
    obtain rfl : fuel = 0x100000000 := by simpa using hfuel
    rfl
  | append_singleton bs b ih =>
    obtain ⟨hbs, hb, hpos⟩ := scanPrefix_append_singleton.mp h
    have hdepth := nextDepth_eq_balance dir b (scanPrefix_balance_pos hbs)
    rw [List.length_append, List.length_singleton] at hfuel ⊢
    rw [ih hbs (fuel := fuel + 1) (by omega), scanFrom_of_open hb (by omega), hdepth]

/-- A scan answers the distance of the match. -/
theorem scan_of_match {mem : List Device} {dir : ScanDir} {a : Int} {k : Nat} (h : BracketMatch mem dir a k) :
    scan mem dir a = .ok k := by
  obtain ⟨bs, b, hbs, rfl, hb, hzero⟩ := h
  have hdepth : dir.nextDepth (dir.balance bs).toNat b = 0 := by
    rw [nextDepth_eq_balance dir b (scanPrefix_balance_pos hbs), hzero]; rfl
  have hfuel : bs.length < 0x100000000 := by
    obtain ⟨hread, -⟩ := hbs
    cases hl : bs.length with
    | zero => omega
    | succ n => rw [hl] at hb; exact distance_le (hread 0 (by omega)) hb
  rw [scan_of_prefix hbs (fuel := 0x100000000 - bs.length - 1 + 1) (by omega)]
  exact scanFrom_of_closed hb hdepth _

/-- A scan faults at the address where it leaves mapped memory. -/
theorem scan_of_runsOff {mem : List Device} {dir : ScanDir} {a : Int} {k : Nat} (h : BracketRunsOff mem dir a k) :
    scan mem dir a = .error (.unmappedAddress (dir.addr a k)) := by
  obtain ⟨bs, hbs, rfl, hb⟩ := h
  have hlen := scanPrefix_length_le hbs
  rw [scan_of_prefix hbs (fuel := 0x100000000 - bs.length) (by omega)]
  exact scanFrom_of_read_error hb _ _

/-- Short of a match and of the end of mapped memory, a scan passes bytes of any number: the next one is there and keeps
the depth positive. -/
theorem scanPrefix_of_length {mem : List Device} {dir : ScanDir} {a : Int} (hmatch : ¬ ∃ k, BracketMatch mem dir a k)
    (hoff : ¬ ∃ k, BracketRunsOff mem dir a k) (n : Nat) : ∃ bs, bs.length = n ∧ ScanPrefix mem dir a bs := by
  induction n with
  | zero => exact ⟨[], rfl, scanPrefix_nil mem dir a⟩
  | succ n ih =>
    obtain ⟨bs, rfl, hbs⟩ := ih
    cases hb : readByte mem (dir.addr a (bs.length + 1)) with
    | error f =>
      obtain ⟨rfl, -⟩ := readByte_error hb
      exact absurd ⟨_, bs, hbs, rfl, hb⟩ hoff
    | ok b =>
      have hnonneg := balance_append_singleton_nonneg dir b (scanPrefix_balance_pos hbs)
      have hnonzero : dir.balance (bs ++ [b]) ≠ 0 := fun hzero => hmatch ⟨_, bs, b, hbs, rfl, hb, hzero⟩
      exact ⟨bs ++ [b], by simp, scanPrefix_append_singleton.mpr ⟨hbs, hb, by omega⟩⟩

/-- Every scan comes to a match or leaves mapped memory: it cannot pass more bytes than the address space has. -/
theorem match_or_runsOff (mem : List Device) (dir : ScanDir) (a : Int) :
    (∃ k, BracketMatch mem dir a k) ∨ ∃ k, BracketRunsOff mem dir a k := by
  by_contra h
  obtain ⟨hmatch, hoff⟩ := not_or.mp h
  obtain ⟨bs, hlen, hbs⟩ := scanPrefix_of_length hmatch hoff 0x100000001
  have hle := scanPrefix_length_le hbs
  omega

/-- Settles O38: one of the two holds, and in each the answer is known. -/
theorem scanFindsTheMatchOrRunsOff : Obligations.ScanFindsTheMatchOrRunsOff := by
  refine fun mem dir a => ⟨fun k => ⟨fun h => ?_, scan_of_match⟩, fun f => ⟨fun h => ?_, ?_⟩⟩
  · obtain ⟨j, hj⟩ | ⟨j, hj⟩ := match_or_runsOff mem dir a
    · obtain rfl : j = k := Except.ok.inj ((scan_of_match hj).symm.trans h)
      exact hj
    · cases (scan_of_runsOff hj).symm.trans h
  · obtain ⟨j, hj⟩ | ⟨j, hj⟩ := match_or_runsOff mem dir a
    · cases (scan_of_match hj).symm.trans h
    · exact ⟨j, hj, (Except.error.inj ((scan_of_runsOff hj).symm.trans h)).symm⟩
  · rintro ⟨j, hj, rfl⟩
    exact scan_of_runsOff hj

/-- Two brackets that face each other match at distance 1. -/
theorem bracketMatch_adjacent {mem : List Device} {dir : ScanDir} {a : Int}
    (h1 : readByte mem (dir.addr a 1) = .ok dir.closes) : BracketMatch mem dir a 1 :=
  ⟨[], dir.closes, scanPrefix_nil mem dir a, rfl, h1, by cases dir <;> decide⟩

/-- A pair inside a pair is passed over: the outer brackets match at distance 3. -/
theorem bracketMatch_around_pair {mem : List Device} {dir : ScanDir} {a : Int}
    (h1 : readByte mem (dir.addr a 1) = .ok dir.opens) (h2 : readByte mem (dir.addr a 2) = .ok dir.closes)
    (h3 : readByte mem (dir.addr a 3) = .ok dir.closes) : BracketMatch mem dir a 3 := by
  have hopen : ScanPrefix mem dir a ([] ++ [dir.opens]) :=
    scanPrefix_append_singleton.mpr ⟨scanPrefix_nil mem dir a, h1, by cases dir <;> decide⟩
  have hpair : ScanPrefix mem dir a ([dir.opens] ++ [dir.closes]) :=
    scanPrefix_append_singleton.mpr ⟨hopen, h2, by cases dir <;> decide⟩
  exact ⟨_, dir.closes, hpair, rfl, h3, by cases dir <;> decide⟩

/-- Settles O39: each bracket has a pair inside it or none. -/
theorem nestedBracketsMatchByDepth : Obligations.NestedBracketsMatchByDepth := by
  intro mem a h0 h1 h2 h3
  have hread : ∀ {dir : ScanDir} {x y : Int} {k : Nat} {b : Byte}, dir.addr x k = y → readByte mem y = .ok b →
      readByte mem (dir.addr x k) = .ok b := fun hxy hy => hxy ▸ hy
  refine ⟨scan_of_match (bracketMatch_around_pair h1 h2 h3),
    scan_of_match (bracketMatch_adjacent (hread ?_ h2)),
    scan_of_match (bracketMatch_around_pair (hread ?_ h2) (hread ?_ h1) (hread ?_ h0)),
    scan_of_match (bracketMatch_adjacent (hread ?_ h1))⟩
  all_goals simp only [ScanDir.addr]; omega

end Sys2Proof.Machine
end

section
/-! The domain of the register's division and shifts (`40_register_ops.md` R136, R144). -/

namespace Sys2Proof.Machine

open Sys2Proof

/-- Division by a nonzero operand floors, in either architecture (R136, D15). -/
theorem regDiv_of_ne_zero (arch : Arch) (a : Word) {b : Int} (hb : b ≠ 0) :
    regDiv arch a b = .ok (regOfInt ((regRead a).fdiv b)) := by
  cases arch <;> exact if_neg hb

/-- A quotient by a positive divisor lies between 0 and the dividend, so reducing it changes nothing. -/
theorem fdiv_emod_of_pos (a : Word) {b : Int} (hb : 0 < b) :
    (regRead a).fdiv b % 4294967296 = regRead a / b ∧ regRead a / b ≤ regRead a := by
  obtain ⟨hlo, hhi⟩ := regRead_range a
  have hle : regRead a / b ≤ regRead a := Int.ediv_le_self b hlo
  have hnonneg : 0 ≤ regRead a / b := Int.ediv_nonneg hlo hb.le
  rw [Int.fdiv_eq_ediv_of_nonneg _ hb.le]
  exact ⟨Int.emod_eq_of_lt hnonneg (by omega), hle⟩

/-- Settles O5: the floor is constructed into a register, and for a positive divisor it is small enough to stay. -/
theorem registerDivisionFloors : Obligations.RegisterDivisionFloors := by
  intro arch a b hb
  refine ⟨_, regDiv_of_ne_zero arch a hb, regRead_regOfInt _, fun hpos => ?_⟩
  obtain ⟨hquot, hle⟩ := fdiv_emod_of_pos a hpos
  rw [regRead_regOfInt, hquot]
  exact ⟨rfl, hle⟩

/-- Settles O6. -/
theorem registerDomainRefused : Obligations.RegisterDomainRefused := fun arch a _ =>
  ⟨(if_pos rfl : regDiv arch a 0 = _), fun hb => ⟨if_pos hb, if_pos hb⟩⟩

end Sys2Proof.Machine
end

section
/-! What each instruction does on a core of its architecture (`42_tape_machine.md` R181 to R188, `43_toy_loadstore.md`
R210), an equation per outcome of its memory access and its scan. -/

namespace Sys2Proof.Machine

open Sys2Proof

/-! ### The frames -/

theorem onTape_of_tm {s : State} {x : TmRegs} (hx : s.regs = .tm x) (body : TmRegs → Except FaultInfo State) :
    onTape s body = .next (finish s (body x)) := by
  simp only [onTape, hx]

theorem onTape_of_ls {s : State} {x : LsRegs} (hx : s.regs = .ls x) (body : TmRegs → Except FaultInfo State) :
    onTape s body = .refused (.foreignInstruction .ls) := by
  simp only [onTape, hx]

theorem onLoadStore_of_ls {s : State} {x : LsRegs} (hx : s.regs = .ls x) (body : LsRegs → Except FaultInfo State) :
    onLoadStore s body = .next (finish s (body x)) := by
  simp only [onLoadStore, hx]

theorem onLoadStore_of_tm {s : State} {x : TmRegs} (hx : s.regs = .tm x) (body : LsRegs → Except FaultInfo State) :
    onLoadStore s body = .refused (.foreignInstruction .tm) := by
  simp only [onLoadStore, hx]

/-- The advance of the tape machine moves `pc` by one and leaves `DP` (R27). -/
theorem tmAdvance_eq (x : TmRegs) : x.advance = { x with pc := x.pc + 1 } := by
  simp only [TmRegs.advance, regAdd_one]

/-- A byte load that is routed nowhere is unmapped (R222). -/
theorem readByte_of_route_error {mem : List Device} {a : Int} {f : FaultInfo} (h : route mem a = .error f) :
    readByte mem a = .error (.unmappedAddress a) := memRead_of_route_error h .w8

/-! ### `PINC`, `PDEC`, `HALT` -/

/-- Settles O40: neither instruction accesses memory. -/
theorem pointerInstructionsMoveDp : Obligations.PointerInstructionsMoveDp := by
  refine fun s x hx => ⟨(onTape_of_tm hx _).trans ?_, (onTape_of_tm hx _).trans ?_⟩
  · rw [finish_ok, tmAdvance_eq, regAdd_one]
  · rw [finish_ok, tmAdvance_eq, regSub_one]

/-- Settles O49. -/
theorem haltChangesOnlyStatus : Obligations.HaltChangesOnlyStatus := fun _ _ hx => onTape_of_tm hx _

/-! ### `DINC` and `DDEC` -/

section
variable {s : State} {x : TmRegs}

theorem exec_dinc (hx : s.regs = .tm x) :
    exec .dinc s = .next (finish s (modifyDataByte s x (fun b => b + 1))) := onTape_of_tm hx _

theorem exec_ddec (hx : s.regs = .tm x) :
    exec .ddec s = .next (finish s (modifyDataByte s x (fun b => b - 1))) := onTape_of_tm hx _

theorem modifyDataByte_of_read_error {f : FaultInfo} (g : Byte → Byte)
    (hr : readByte s.mem (regRead x.dp) = .error f) : modifyDataByte s x g = .error f := by
  simp only [modifyDataByte, hr]

theorem modifyDataByte_of_write_error {b : Byte} {f : FaultInfo} {g : Byte → Byte}
    (hr : readByte s.mem (regRead x.dp) = .ok b) (hw : writeByte s.mem (regRead x.dp) (g b) = .error f) :
    modifyDataByte s x g = .error f := by
  simp only [modifyDataByte, hr, hw]

theorem modifyDataByte_of_write_ok {b : Byte} {mem : List Device} {g : Byte → Byte}
    (hr : readByte s.mem (regRead x.dp) = .ok b) (hw : writeByte s.mem (regRead x.dp) (g b) = .ok mem) :
    modifyDataByte s x g = .ok { s with regs := .tm { x with pc := x.pc + 1 }, mem := mem } := by
  simp only [modifyDataByte, hr, hw, tmAdvance_eq]

/-- On a code store the load succeeds and the store does not (R183, R184, R224). -/
theorem modifyDataByte_of_rom {d : Device} (g : Byte → Byte) (h : route s.mem (regRead x.dp) = .ok d)
    (hk : d.kind = .rom) : modifyDataByte s x g = .error (.readOnlyViolation (regRead x.dp) .w8) :=
  modifyDataByte_of_write_error (readByte_of_route h) (memWrite_of_rom _ h hk)

/-- The ways the read-modify-write can fault: at the load, or at the store to a code store. -/
theorem modifyDataByte_error {f : FaultInfo} {g : Byte → Byte} (h : modifyDataByte s x g = .error f) :
    f = .unmappedAddress (regRead x.dp) ∧ readByte s.mem (regRead x.dp) = .error f ∨
      f = .readOnlyViolation (regRead x.dp) .w8 ∧ ∃ d, route s.mem (regRead x.dp) = .ok d ∧ d.kind = .rom := by
  cases hroute : route s.mem (regRead x.dp) with
  | error e =>
    have hr := readByte_of_route_error hroute
    rw [modifyDataByte_of_read_error g hr] at h
    obtain rfl := Except.error.inj h
    exact .inl ⟨rfl, hr⟩
  | ok d =>
    by_cases hk : d.kind = .rom
    · rw [modifyDataByte_of_rom g hroute hk] at h
      exact .inr ⟨(Except.error.inj h).symm, d, rfl, hk⟩
    · obtain ⟨mem, hw⟩ := writeByte_of_route hroute hk (g (Memory.readCell d.bytes (d.offset (regRead x.dp))))
      rw [modifyDataByte_of_write_ok (readByte_of_route hroute) hw] at h
      cases h

end

/-- What a byte store leaves of the device list but its byte: the next load of it, geometry, code stores and the byte at
every other address. -/
theorem writeByte_effect {mem mem' : List Device} {a : Int} {b : Byte} (h : writeByte mem a b = .ok mem') :
    readByte mem' a = .ok b ∧ memGeometry mem' = memGeometry mem ∧ codeStores mem' = codeStores mem ∧
      ∀ c : Int, c ≠ a → readByte mem' c = readByte mem c :=
  ⟨readByte_of_writeByte h, memWrite_geometry h, memWrite_codeStores h, fun _ hc => readByte_of_writeByte_ne h hc⟩

/-- On a writable device the read-modify-write goes through: one byte fits wherever the load found one. -/
theorem modifyDataByte_of_writable {s : State} {x : TmRegs} {d : Device} (g : Byte → Byte)
    (hroute : route s.mem (regRead x.dp) = .ok d) (hk : d.kind ≠ .rom) :
    ∃ mem, modifyDataByte s x g = .ok { s with regs := .tm { x with pc := x.pc + 1 }, mem := mem } ∧
      writeByte s.mem (regRead x.dp) (g (Memory.readCell d.bytes (d.offset (regRead x.dp)))) = .ok mem ∧
      readByte mem (regRead x.dp) = .ok (g (Memory.readCell d.bytes (d.offset (regRead x.dp)))) ∧
      memGeometry mem = memGeometry s.mem ∧ codeStores mem = codeStores s.mem ∧
      ∀ a : Int, a ≠ regRead x.dp → readByte mem a = readByte s.mem a := by
  obtain ⟨mem, hw⟩ := writeByte_of_route hroute hk (g (Memory.readCell d.bytes (d.offset (regRead x.dp))))
  exact ⟨mem, modifyDataByte_of_write_ok (readByte_of_route hroute) hw, hw, writeByte_effect hw⟩

/-- Settles O41: `DINC` and `DDEC` are the read-modify-write with the two modifications. -/
theorem dataInstructionsChangeTheByteAtDp : Obligations.DataInstructionsChangeTheByteAtDp := by
  intro s x d hx hroute hk
  refine ⟨_, readByte_of_route hroute, ?_, ?_⟩
  · obtain ⟨mem, hbody, hw, heffect⟩ := modifyDataByte_of_writable (fun b => b + 1) hroute hk
    exact ⟨mem, by rw [exec_dinc hx, hbody, finish_ok], hw, heffect⟩
  · obtain ⟨mem, hbody, hw, heffect⟩ := modifyDataByte_of_writable (fun b => b - 1) hroute hk
    exact ⟨mem, by rw [exec_ddec hx, hbody, finish_ok], hw, heffect⟩

/-- Settles O42: unmapped from the load, read-only from the store. -/
theorem dataInstructionFaults : Obligations.DataInstructionFaults := by
  refine fun s x hx => ⟨fun f h => ?_, fun d h hk => ?_⟩
  · have hfault := fun g => modifyDataByte_of_read_error g (readByte_of_route_error h)
    rw [exec_dinc hx, exec_ddec hx, hfault, hfault]
    exact ⟨rfl, rfl⟩
  · rw [exec_dinc hx, exec_ddec hx, modifyDataByte_of_rom _ h hk, modifyDataByte_of_rom _ h hk]
    exact ⟨rfl, rfl⟩

/-! ### `OUT` -/

section
variable {s : State} {x : TmRegs}

theorem exec_out_of_read_ok {b : Byte} (hx : s.regs = .tm x) (hr : readByte s.mem (regRead x.dp) = .ok b) :
    exec .out s = .next { s with regs := .tm { x with pc := x.pc + 1 }, out := s.out ++ [b] } := by
  simp only [exec, execOut, onTape_of_tm hx, hr, finish_ok, tmAdvance_eq]

theorem exec_out_of_read_error {f : FaultInfo} (hx : s.regs = .tm x) (hr : readByte s.mem (regRead x.dp) = .error f) :
    exec .out s = .next (takeFault f s) := by
  simp only [exec, execOut, onTape_of_tm hx, hr, finish_error]

end

/-- Settles O48. -/
theorem outAppendsTheByteAtDp : Obligations.OutAppendsTheByteAtDp := fun _ _ hx =>
  ⟨fun _ h => exec_out_of_read_ok hx (readByte_of_route h),
    fun _ h => exec_out_of_read_error hx (readByte_of_route_error h)⟩

/-! ### `JZF` and `JNZB` -/

/-- The body the two jumps share: the data byte, then, if it says so, the scan, then `pc` (R185, R186, D11). -/
def jumpBody (s : State) (x : TmRegs) (taken : Byte → Prop) [DecidablePred taken] (dir : ScanDir)
    (target : Nat → Word) : Except FaultInfo State :=
  match readByte s.mem (regRead x.dp) with
  | .error e => .error e
  | .ok b =>
    if taken b then
      match scan s.mem dir (regRead x.pc) with
      | .error e => .error e
      | .ok k => .ok { s with regs := .tm { x with pc := target k } }
    else .ok { s with regs := .tm x.advance }

section
variable {s : State} {x : TmRegs}

theorem exec_jzf (hx : s.regs = .tm x) :
    exec .jzf s = .next (finish s (jumpBody s x (fun b => b = 0) .forward fun k => regAdd x.pc ((k : Int) + 1))) :=
  onTape_of_tm hx _

theorem exec_jnzb (hx : s.regs = .tm x) :
    exec .jnzb s =
      .next (finish s (jumpBody s x (fun b => b ≠ 0) .backward fun k => regAdd (regSub x.pc (k : Int)) 1)) :=
  onTape_of_tm hx _

variable {taken : Byte → Prop} [DecidablePred taken] {dir : ScanDir} {target : Nat → Word} {b : Byte}

theorem jumpBody_of_read_error {f : FaultInfo} (hr : readByte s.mem (regRead x.dp) = .error f) :
    jumpBody s x taken dir target = .error f := by
  simp only [jumpBody, hr]

theorem jumpBody_of_not_taken (hr : readByte s.mem (regRead x.dp) = .ok b) (hb : ¬ taken b) :
    jumpBody s x taken dir target = .ok { s with regs := .tm { x with pc := x.pc + 1 } } := by
  simp only [jumpBody, hr, if_neg hb, tmAdvance_eq]

theorem jumpBody_of_match {k : Nat} (hr : readByte s.mem (regRead x.dp) = .ok b) (hb : taken b)
    (hk : BracketMatch s.mem dir (regRead x.pc) k) :
    jumpBody s x taken dir target = .ok { s with regs := .tm { x with pc := target k } } := by
  simp only [jumpBody, hr, if_pos hb, scan_of_match hk]

theorem jumpBody_of_runsOff {k : Nat} (hr : readByte s.mem (regRead x.dp) = .ok b) (hb : taken b)
    (hk : BracketRunsOff s.mem dir (regRead x.pc) k) :
    jumpBody s x taken dir target = .error (.unmappedAddress (dir.addr (regRead x.pc) k)) := by
  simp only [jumpBody, hr, if_pos hb, scan_of_runsOff hk]

/-- A jump whose bracket has a match completes, taken or not, and moves `pc` alone. -/
theorem jumpBody_completes (hr : readByte s.mem (regRead x.dp) = .ok b)
    (hk : ∃ k, BracketMatch s.mem dir (regRead x.pc) k) :
    ∃ pc, jumpBody s x taken dir target = .ok { s with regs := .tm { x with pc := pc } } := by
  obtain ⟨k, hk⟩ := hk
  by_cases hb : taken b
  · exact ⟨_, jumpBody_of_match hr hb hk⟩
  · exact ⟨_, jumpBody_of_not_taken hr hb⟩

/-- What a jump's body answers: a fault of its load, a fault of its scan, taken, or a state with only `pc` moved. -/
theorem jumpBody_cases (s : State) (x : TmRegs) (taken : Byte → Prop) [DecidablePred taken] (dir : ScanDir)
    (target : Nat → Word) :
    (readByte s.mem (regRead x.dp) = .error (.unmappedAddress (regRead x.dp)) ∧
      jumpBody s x taken dir target = .error (.unmappedAddress (regRead x.dp))) ∨
    (∃ b k, readByte s.mem (regRead x.dp) = .ok b ∧ taken b ∧ BracketRunsOff s.mem dir (regRead x.pc) k ∧
      jumpBody s x taken dir target = .error (.unmappedAddress (dir.addr (regRead x.pc) k))) ∨
    ∃ pc, jumpBody s x taken dir target = .ok { s with regs := .tm { x with pc := pc } } := by
  cases hr : readByte s.mem (regRead x.dp) with
  | error e =>
    obtain ⟨rfl, -⟩ := readByte_error hr
    exact .inl ⟨rfl, jumpBody_of_read_error hr⟩
  | ok b =>
    by_cases hb : taken b
    · obtain hmatch | ⟨k, hk⟩ := match_or_runsOff s.mem dir (regRead x.pc)
      · exact .inr (.inr (jumpBody_completes hr hmatch))
      · exact .inr (.inl ⟨b, k, rfl, hb, hk, jumpBody_of_runsOff hr hb hk⟩)
    · exact .inr (.inr ⟨_, jumpBody_of_not_taken hr hb⟩)

end

/-- Settles O43: the shared body looks at the byte before it scans. -/
theorem jumpsNotTakenFallThrough : Obligations.JumpsNotTakenFallThrough := by
  refine fun s x b hx hr => ⟨fun hb => ?_, fun hb => ?_⟩
  · rw [exec_jzf hx, jumpBody_of_not_taken hr hb, finish_ok]
  · rw [exec_jnzb hx, jumpBody_of_not_taken hr (not_not.mpr hb), finish_ok]

/-- Settles O44: the sum on integers is the sum of words. -/
theorem jzfJumpsPastItsMatch : Obligations.JzfJumpsPastItsMatch := by
  intro s x k hx hr hk
  have htarget : regAdd x.pc ((k : Int) + 1) = x.pc + BitVec.ofNat 32 k + 1 := by
    rw [← Nat.cast_add_one, regAdd_natCast, BitVec.ofNat_add, ← BitVec.add_assoc]
    rfl
  rw [exec_jzf hx, jumpBody_of_match (taken := fun b => b = 0) hr rfl hk, finish_ok, htarget]

/-- Settles O45. -/
theorem jnzbJumpsBackAfterItsMatch : Obligations.JnzbJumpsBackAfterItsMatch := by
  intro s x b k hx hr hb hk
  rw [exec_jnzb hx, jumpBody_of_match hr hb hk, finish_ok, regSub_natCast, regAdd_one]

/-- Settles O46: the load's fault comes first, the scan's only when the jump is taken. -/
theorem jumpFaults : Obligations.JumpFaults := by
  refine fun s x hx => ⟨fun f h => ⟨?_, ?_⟩, fun k hr hk => ?_, fun k b hr hb hk => ?_⟩
  · rw [exec_jzf hx, jumpBody_of_read_error (readByte_of_route_error h)]; rfl
  · rw [exec_jnzb hx, jumpBody_of_read_error (readByte_of_route_error h)]; rfl
  · rw [exec_jzf hx, jumpBody_of_runsOff (taken := fun b => b = 0) hr rfl hk]; rfl
  · rw [exec_jnzb hx, jumpBody_of_runsOff hr hb hk]; rfl

/-- Settles O47: the region's predicate gives the bracket at `pc` its match. -/
theorem wellBracketedJumpsComplete : Obligations.WellBracketedJumpsComplete := by
  intro s x lo hi b hx hwell hlo hhi hr
  obtain ⟨hforward, hbackward⟩ := hwell (regRead x.pc) hlo hhi
  refine ⟨fun hopen => ?_, fun hclose => ?_⟩
  · obtain ⟨pc, hpc⟩ := jumpBody_completes (taken := fun b => b = 0)
      (target := fun k => regAdd x.pc ((k : Int) + 1)) hr (hforward hopen)
    exact ⟨pc, by rw [exec_jzf hx, hpc, finish_ok]⟩
  · obtain ⟨pc, hpc⟩ := jumpBody_completes (taken := fun b => b ≠ 0)
      (target := fun k => regAdd (regSub x.pc (k : Int)) 1) hr (hbackward hclose)
    exact ⟨pc, by rw [exec_jnzb hx, hpc, finish_ok]⟩

/-! ### `INC` -/

theorem exec_inc {s : State} {x : LsRegs} (hx : s.regs = .ls x) (n : RegIndex) :
    exec (.inc n) s = .next { s with regs := .ls (x.setR n (x.getR n + 1)).advance } := by
  simp only [exec, execInc, onLoadStore_of_ls hx, finish_ok, regAdd_one]

/-- Settles O50: the write to `Rn` and the advance touch no other register. -/
theorem incAddsOneToRn : Obligations.IncAddsOneToRn := fun _ x n hx =>
  ⟨_, exec_inc hx n, getR_setR_same x n _, fun m hm => getR_setR_ne x m n _ hm, rfl, rfl, regAdd_four x.pc⟩

end Sys2Proof.Machine
end

section
/-! What every step does or leaves alone: foreign instructions, output, memory, status and the faults it may take
(`41_core_cycle.md` R160 to R172, `60_exceptions.md` R227 to R231). -/

namespace Sys2Proof.Machine

open Sys2Proof

/-! ### The architecture of what runs -/

theorem regs_of_arch_tm {s : State} (h : s.arch = .tm) : ∃ x, s.regs = .tm x := by
  cases hr : s.regs with
  | tm x => exact ⟨x, rfl⟩
  | ls x => simp [State.arch, hr] at h

theorem regs_of_arch_ls {s : State} (h : s.arch = .ls) : ∃ x, s.regs = .ls x := by
  cases hr : s.regs with
  | ls x => exact ⟨x, rfl⟩
  | tm x => simp [State.arch, hr] at h

/-- A tape-machine instruction is refused on a load/store core (R104). -/
theorem exec_of_arch_ls {i : Instr} {s : State} (hi : i.arch = .tm) (hs : s.arch = .ls) :
    exec i s = .refused (.foreignInstruction .ls) := by
  obtain ⟨x, hx⟩ := regs_of_arch_ls hs
  cases i with
  | inc n => cases hi
  | pinc | pdec | dinc | ddec | jzf | jnzb | out | halt => exact onTape_of_ls hx _

/-- A load/store instruction is refused on a tape machine (R104). -/
theorem exec_of_arch_tm {i : Instr} {s : State} (hi : i.arch = .ls) (hs : s.arch = .tm) :
    exec i s = .refused (.foreignInstruction .tm) := by
  obtain ⟨x, hx⟩ := regs_of_arch_tm hs
  cases i with
  | inc n => exact onLoadStore_of_tm hx _
  | pinc | pdec | dinc | ddec | jzf | jnzb | out | halt => cases hi

/-- Settles O53: each frame refuses the other architecture's register file, and what is decoded is of the core's
format. -/
theorem foreignInstructionsRefused : Obligations.ForeignInstructionsRefused := by
  refine fun i s => ⟨fun hforeign => ?_, fun h => decide_eq_true (arch_of_fetchDecode h)⟩
  have hne : i.arch ≠ s.arch := of_decide_eq_false hforeign
  cases hs : s.arch with
  | tm =>
    cases hi : i.arch with
    | tm => exact absurd (hi.trans hs.symm) hne
    | ls => exact exec_of_arch_tm hi hs
  | ls =>
    cases hi : i.arch with
    | tm => exact exec_of_arch_ls hi hs
    | ls => exact absurd (hi.trans hs.symm) hne

/-! ### Output and memory -/

/-- The only effect of an instruction on the sink is `OUT`'s: the byte at `x[DP]` at its end (R187). -/
theorem exec_output {i : Instr} {s t : State} (h : exec i s = .next t) :
    t.out = s.out ∨
      ∃ x b, i = .out ∧ s.regs = .tm x ∧ readByte s.mem (regRead x.dp) = .ok b ∧ t.out = s.out ++ [b] := by
  obtain ⟨f, rfl⟩ | ⟨x, y, -, rfl, -⟩ | ⟨x, b, mem, -, -, rfl, -⟩ | ⟨x, b, hx, hr, rfl, hi⟩ | ⟨rfl, -, -⟩ |
    ⟨x, n, -, rfl, -⟩ := exec_next h
  case inr.inr.inr.inl => exact .inr ⟨x, b, hi, hx, hr, rfl⟩
  all_goals exact .inl rfl

/-- Settles O32. -/
theorem outputGrowsOnlyByOut : Obligations.OutputGrowsOnlyByOut := by
  intro s t h
  obtain ⟨-, ⟨f, -, rfl⟩ | ⟨i, hi, he⟩⟩ := step_next h
  · exact .inl rfl
  · obtain hsame | ⟨x, b, rfl, hx, hr, hout⟩ := exec_output he
    · exact .inl hsame
    · exact .inr ⟨x, b, hx, hi, hr, hout⟩

/-- Settles O33: what memory effect there is, is a byte store at `x[DP]`. -/
theorem memoryChangesOnlyAtTheDataPointer : Obligations.MemoryChangesOnlyAtTheDataPointer := by
  intro i s t h
  obtain hmem | ⟨x, b, hx, hi, hw⟩ := exec_mem h
  · exact .inl hmem
  · exact .inr ⟨hi, x, hx, fun a ha => readByte_of_writeByte_ne hw ha⟩

/-! ### The status -/

/-- What an instruction does to the status: it takes a fault, or is `HALT` and halts, or leaves it. -/
theorem exec_status {i : Instr} {s t : State} (h : exec i s = .next t) :
    (∃ f, t = takeFault f s) ∨ i = .halt ∧ t.status = .halted ∨ t.status = s.status := by
  obtain hf | ⟨x, y, -, rfl, -⟩ | ⟨x, b, mem, -, -, rfl, -⟩ | ⟨x, b, -, -, rfl, -⟩ | ⟨rfl, -, hi⟩ |
    ⟨x, n, -, rfl, -⟩ := exec_next h
  case inl => exact .inl hf
  case inr.inr.inr.inr.inl => exact .inr (.inl ⟨hi, rfl⟩)
  all_goals exact .inr (.inr rfl)

/-- What a step does to the status, with what it fetched: it takes a fault, or ran `HALT`, or goes on running. -/
theorem step_status {s t : State} (h : step s = .next t) :
    (∃ f, t = takeFault f s) ∨ fetchDecode s = .ok .halt ∧ t.status = .halted ∨ t.status = .running := by
  obtain ⟨hs, ⟨f, -, rfl⟩ | ⟨i, hi, he⟩⟩ := step_next h
  · exact .inl ⟨f, rfl⟩
  · obtain hf | ⟨rfl, hhalt⟩ | hsame := exec_status he
    · exact .inl hf
    · exact .inr (.inl ⟨hi, hhalt⟩)
    · exact .inr (.inr (hsame.trans hs))

/-- Settles O34: a step with a fault in its status took that fault on the state before it. -/
theorem faultingStepChangesOnlyStatus : Obligations.FaultingStepChangesOnlyStatus := by
  intro s t f h hf
  obtain ⟨g, rfl⟩ | ⟨-, hhalt⟩ | hrun := step_status h
  · cases hf; rfl
  · rw [hhalt] at hf; cases hf
  · rw [hrun] at hf; cases hf

/-- A step that decoded `HALT` halts: it is on a tape machine, where `HALT` has no fault. -/
theorem step_of_fetchDecode_halt {s : State} (hs : s.status = .running) (h : fetchDecode s = .ok .halt) :
    step s = .next { s with status := .halted } := by
  obtain ⟨x, hx⟩ := regs_of_arch_tm (arch_of_fetchDecode h).symm
  rw [step_of_fetchDecode_ok hs h, haltChangesOnlyStatus s x hx]

/-- Settles O35: among the ends of a step only `HALT`'s has the status halted, and a decoded `HALT` ends so. -/
theorem onlyHaltHalts : Obligations.OnlyHaltHalts := by
  refine fun s t h => ⟨fun hhalted => ?_, fun hdecoded => ?_⟩
  · obtain ⟨g, rfl⟩ | ⟨hdecoded, -⟩ | hrun := step_status h
    · cases hhalted
    · exact hdecoded
    · rw [hrun] at hhalted; cases hhalted
  · obtain ⟨hs, -⟩ := step_next h
    rw [step_of_fetchDecode_halt hs hdecoded] at h
    cases h; rfl

/-! ### The faults of each step -/

/-- A fetch is unmapped, or, on the load/store machine alone, out of range: the tape machine's byte always fits (R161,
R227). -/
theorem fetch_error {s : State} {f : FaultInfo} (h : fetch s = .error f) :
    f = .unmappedAddress (regRead s.pc) ∨ s.arch = .ls ∧ f = .outOfRange (regRead s.pc) .w32 := by
  rw [fetch_error_iff] at h
  cases ha : s.arch with
  | tm =>
    rw [ha] at h
    obtain ⟨hf, -⟩ := readByte_error h
    exact .inl hf
  | ls =>
    rw [ha] at h
    cases hr : route s.mem (regRead s.pc) with
    | error e =>
      rw [memRead_of_route_error hr] at h
      exact .inl (Except.error.inj h).symm
    | ok d =>
      rw [memRead_of_route hr] at h
      by_cases hfit : d.offset (regRead s.pc) + Width.w32.bytes ≤ d.size
      · obtain ⟨u, hu⟩ := devLoad_of_fits hfit
        cases hu.symm.trans h
      · exact .inr ⟨rfl, (Except.error.inj ((devLoad_of_past hfit).symm.trans h)).symm⟩

/-- A body whose state leaves the status running can show a fault only by answering it. -/
theorem error_of_finish_faulted {s t : State} {r : Except FaultInfo State} {f : FaultInfo}
    (h : (.next (finish s r) : Host.Outcome State Fault Refusal) = .next t) (hf : t.status = .faulted f)
    (hr : ∀ u, r = .ok u → u.status = .running) : r = .error f := by
  obtain rfl := Host.Outcome.next.inj h
  cases r with
  | ok u =>
    rw [finish_ok, hr u rfl] at hf
    cases hf
  | error g => cases hf; rfl

section
variable {s t : State} {x : TmRegs} {f : FaultInfo}

/-- The faults of `DINC` and `DDEC` (R227). -/
theorem modifyDataByte_faulted {g : Byte → Byte} (hs : s.status = .running)
    (h : (.next (finish s (modifyDataByte s x g)) : Host.Outcome State Fault Refusal) = .next t)
    (hf : t.status = .faulted f) :
    f = .unmappedAddress (regRead x.dp) ∧ readByte s.mem (regRead x.dp) = .error f ∨
      f = .readOnlyViolation (regRead x.dp) .w8 ∧ ∃ d, route s.mem (regRead x.dp) = .ok d ∧ d.kind = .rom := by
  refine modifyDataByte_error (error_of_finish_faulted h hf fun u hu => ?_)
  obtain ⟨b, mem, -, -, rfl⟩ := modifyDataByte_ok hu
  exact hs

/-- The fault of `OUT` (R227). -/
theorem exec_out_faulted (hx : s.regs = .tm x) (hs : s.status = .running) (h : exec .out s = .next t)
    (hf : t.status = .faulted f) :
    f = .unmappedAddress (regRead x.dp) ∧ readByte s.mem (regRead x.dp) = .error f := by
  cases hr : readByte s.mem (regRead x.dp) with
  | ok b =>
    rw [exec_out_of_read_ok hx hr] at h
    cases h
    cases hs.symm.trans hf
  | error e =>
    obtain ⟨he, -⟩ := readByte_error hr
    rw [exec_out_of_read_error hx hr] at h
    cases h
    cases hf
    exact ⟨he, rfl⟩

/-- The faults of the jumps (R227): the load's, or, taken, the scan's. -/
theorem jumpBody_faulted {taken : Byte → Prop} [DecidablePred taken] {dir : ScanDir} {target : Nat → Word}
    (hs : s.status = .running)
    (h : (.next (finish s (jumpBody s x taken dir target)) : Host.Outcome State Fault Refusal) = .next t)
    (hf : t.status = .faulted f) :
    f = .unmappedAddress (regRead x.dp) ∧ readByte s.mem (regRead x.dp) = .error f ∨
      (∃ b, readByte s.mem (regRead x.dp) = .ok b ∧ taken b) ∧
        ∃ k, BracketRunsOff s.mem dir (regRead x.pc) k ∧ f = .unmappedAddress (dir.addr (regRead x.pc) k) := by
  obtain ⟨hr, hbody⟩ | ⟨b, k, hr, hb, hk, hbody⟩ | ⟨pc, hbody⟩ := jumpBody_cases s x taken dir target <;>
    rw [hbody] at h <;> cases h
  · cases hf; exact .inl ⟨rfl, hr⟩
  · cases hf; exact .inr ⟨⟨b, hr, hb⟩, k, hk, rfl⟩
  · cases hs.symm.trans hf

/-- `PINC`, `PDEC` and `HALT` raise no fault (R227). -/
theorem exec_not_faulted {i : Instr} (hx : s.regs = .tm x) (hs : s.status = .running)
    (hi : i = .pinc ∨ i = .pdec ∨ i = .halt) (h : exec i s = .next t) : t.status ≠ .faulted f := by
  obtain ⟨hpinc, hpdec⟩ := pointerInstructionsMoveDp s x hx
  have hhalt := haltChangesOnlyStatus s x hx
  obtain rfl | rfl | rfl := hi
  · obtain rfl := Host.Outcome.next.inj (hpinc.symm.trans h)
    simp [hs]
  · obtain rfl := Host.Outcome.next.inj (hpdec.symm.trans h)
    simp [hs]
  · obtain rfl := Host.Outcome.next.inj (hhalt.symm.trans h)
    simp

/-- No instruction of the load/store machine raises a fault (R210, R227). -/
theorem exec_ls_not_faulted {i : Instr} (ha : s.arch = .ls) (hs : s.status = .running) (h : exec i s = .next t) :
    t.status ≠ .faulted f := by
  obtain ⟨x, hx⟩ := regs_of_arch_ls ha
  cases i with
  | inc n =>
    obtain rfl := Host.Outcome.next.inj ((exec_inc hx n).symm.trans h)
    simp [hs]
  | pinc | pdec | dinc | ddec | jzf | jnzb | out | halt => cases (exec_of_arch_ls rfl ha).symm.trans h

end

/-- Settles O36: the fault is the fetch's or the decoder's, or the instruction's own; `PINC`, `PDEC`, `HALT` and `INC`
complete with no fault. -/
theorem faultsOfEachStep : Obligations.FaultsOfEachStep := by
  intro s t f h hf
  obtain ⟨hs, ⟨g, hg, rfl⟩ | ⟨i, hi, he⟩⟩ := step_next h
  · cases hf
    obtain hfetch | ⟨raw, e, hfetch, hdecode, hillegal⟩ := fetchDecode_error hg
    · exact .inl ⟨hfetch, fetch_error hfetch⟩
    · exact .inr (.inl ⟨raw, e, hfetch, hdecode, hillegal⟩)
  · cases ha : s.arch with
    | ls => exact absurd hf (exec_ls_not_faulted ha hs he)
    | tm =>
      obtain ⟨x, hx⟩ := regs_of_arch_tm ha
      refine .inr (.inr ⟨x, hx, ?_⟩)
      cases i with
      | inc n => cases (arch_of_fetchDecode hi).trans ha
      | pinc | pdec | halt => exact absurd hf (exec_not_faulted hx hs (by simp) he)
      | dinc =>
        rw [exec_dinc hx] at he
        exact .inl ⟨.inl hi, modifyDataByte_faulted hs he hf⟩
      | ddec =>
        rw [exec_ddec hx] at he
        exact .inl ⟨.inr hi, modifyDataByte_faulted hs he hf⟩
      | out => exact .inr (.inl ⟨hi, exec_out_faulted hx hs he hf⟩)
      | jzf =>
        rw [exec_jzf hx] at he
        refine .inr (.inr (.inl ⟨hi, (jumpBody_faulted hs he hf).imp_right ?_⟩))
        rintro ⟨⟨b, hr, rfl⟩, hoff⟩
        exact ⟨hr, hoff⟩
      | jnzb =>
        rw [exec_jnzb hx] at he
        exact .inr (.inr (.inr ⟨hi, jumpBody_faulted hs he hf⟩))

end Sys2Proof.Machine
end

section
/-! The load/store machine's step (`43_toy_loadstore.md` R210 to R212): `SP` and `LR` play no part in it, and
`pc` moves by four. -/

namespace Sys2Proof.Machine

open Sys2Proof

/-- A step of the load/store machine takes a fault of fetch or decode, or runs `INC`: it has no other instruction. -/
theorem step_of_ls {s t : State} {x : LsRegs} (hx : s.regs = .ls x) (h : step s = .next t) :
    s.status = .running ∧
      ((∃ f, fetchDecode s = .error f ∧ t = takeFault f s) ∨
        ∃ n, fetchDecode s = .ok (.inc n) ∧ t = { s with regs := .ls (x.setR n (x.getR n + 1)).advance }) := by
  have ha : s.arch = .ls := by simp [State.arch, hx]
  obtain ⟨hs, hfault | ⟨i, hi, he⟩⟩ := step_next h
  · exact ⟨hs, .inl hfault⟩
  · refine ⟨hs, .inr ?_⟩
    cases i with
    | inc n => exact ⟨n, hi, (Host.Outcome.next.inj ((exec_inc hx n).symm.trans he)).symm⟩
    | pinc | pdec | dinc | ddec | jzf | jnzb | out | halt => cases (arch_of_fetchDecode hi).trans ha

/-- Other values in `SP` and `LR` make no other fetch: it depends on the architecture, `pc` and memory (R161, R211). -/
theorem fetchDecode_with_sp_lr {s : State} {x : LsRegs} (hx : s.regs = .ls x) (u v : Word) :
    fetchDecode { s with regs := .ls { x with sp := u, lr := v } } = fetchDecode s :=
  fetchDecode_congr (by simp [State.arch, hx]) (by simp [State.pc, hx]) rfl

/-- Settles O51: with other values in `SP` and `LR` the same fault is taken, or the same `INC` runs and carries them
along. -/
theorem stackAndLinkNeitherReadNorWritten : Obligations.StackAndLinkNeitherReadNorWritten := by
  intro s t x hx h
  obtain ⟨hs, ⟨f, hf, rfl⟩ | ⟨n, hn, rfl⟩⟩ := step_of_ls hx h
  · refine ⟨x, hx, rfl, rfl, .inr ⟨⟨f, rfl⟩, rfl⟩, fun u v => ?_⟩
    exact step_of_fetchDecode_error (s := { s with regs := .ls { x with sp := u, lr := v } }) hs
      ((fetchDecode_with_sp_lr hx u v).trans hf)
  · refine ⟨_, rfl, rfl, rfl, .inl ⟨hs, regAdd_four x.pc⟩, fun u v => ?_⟩
    rw [step_of_fetchDecode_ok (s := { s with regs := .ls { x with sp := u, lr := v } }) hs
      ((fetchDecode_with_sp_lr hx u v).trans hn)]
    exact exec_inc (s := { s with regs := .ls { x with sp := u, lr := v } }) rfl n

/-- Settles O52: `pc` stays or moves by four, and `2^32` is a multiple of 4. -/
theorem loadStorePcStaysAligned : Obligations.LoadStorePcStaysAligned := by
  intro s t ha hpc h
  obtain ⟨x, hx⟩ := regs_of_arch_ls ha
  refine ⟨(step_arch h).trans ha, ?_⟩
  obtain ⟨-, ⟨f, -, rfl⟩ | ⟨n, -, rfl⟩⟩ := step_of_ls hx h
  · exact hpc
  · have hx4 : x.pc.toNat % 4 = 0 := by simpa [State.pc, hx] using hpc
    have hadd : (x.pc + 4).toNat = (x.pc.toNat + 4) % 4294967296 := BitVec.toNat_add x.pc 4
    simp only [State.pc, pc_ls, lsAdvance_pc, setR_pc, regAdd_four, hadd]
    omega

end Sys2Proof.Machine
end

section
/-! The host's word of the opcode table (`70_reset_and_hazards.md` R262, log entries 5, 15, 20): a core ready for it,
its bytes where the next fetch reads, and that fetch. -/

namespace Sys2Proof.Machine

open Sys2Proof

@[simp] theorem readyCore_status (arch : Arch) (s : State) : (readyCore arch s).status = .running := by
  unfold readyCore; split <;> rfl

@[simp] theorem readyCore_arch (arch : Arch) (s : State) : (readyCore arch s).arch = arch := by
  unfold readyCore
  split_ifs with h
  · exact h
  · exact arch_reset _ _

@[simp] theorem withFetchWord_status (s : State) (nbits w : Nat) : (s.withFetchWord nbits w).status = .running :=
  readyCore_status _ s

@[simp] theorem withFetchWord_arch (s : State) (nbits w : Nat) :
    (s.withFetchWord nbits w).arch = tableArch nbits w := readyCore_arch _ s

@[simp] theorem tableBytes_length (nbits w : Nat) : (tableBytes nbits w).length = (tableArch nbits w).ib :=
  leBytes_length _ _

/-- What a table row decodes to is what its bytes decode to. -/
theorem decodeTableWord_some {nbits w : Nat} {i : Instr} (h : decodeTableWord nbits w = some i) :
    ∃ raw, rawOfBytes (tableArch nbits w) (tableBytes nbits w) = .ok raw ∧ decode raw = .ok i := by
  unfold decodeTableWord decodeBytes at h
  cases hraw : rawOfBytes (tableArch nbits w) (tableBytes nbits w) with
  | error e => simp [hraw] at h
  | ok raw =>
    cases hd : decode raw with
    | error e => simp [hraw, hd] at h
    | ok j => exact ⟨raw, rfl, by simpa [hraw, hd] using h⟩

/-- A code store that holds just the given bytes, as `installBytes` registers it. -/
def codeStoreOf (addr : Nat) (bs : List Byte) : Device :=
  { kind := .rom, base := addr, size := bs.length, bytes := Memory.writeCells [] 0 bs }

/-- Bytes stand whole at an address of a device list: in the device that a fetch there is routed to. -/
def HoldsBytes (mem : List Device) (addr : Nat) (bs : List Byte) : Prop :=
  ∃ d, route mem addr = .ok d ∧ d.offset addr + bs.length ≤ d.size ∧
    Memory.readCells d.bytes (d.offset addr) bs.length = bs

/-- A code store registered first answers for its whole range, whatever stands behind it. -/
theorem holdsBytes_codeStoreOf_cons (mem : List Device) {addr : Nat} {bs : List Byte} (hpos : 0 < bs.length)
    (hend : addr + bs.length ≤ 0x100000000) : HoldsBytes (codeStoreOf addr bs :: mem) addr bs := by
  have hin : (codeStoreOf addr bs).contains addr = true := contains_iff.mpr (by simp only [codeStoreOf]; omega)
  have hoff : (codeStoreOf addr bs).offset addr = 0 := by simp [codeStoreOf, Device.offset]
  refine ⟨_, route_append_cons (before := []) (by omega) hin nofun, ?_, ?_⟩
  · rw [hoff, Nat.zero_add]; exact le_rfl
  · rw [hoff]; exact readCells_writeCells_same [] 0 bs

/-- Bytes put into the device routed to stand there, for it keeps its place and its range. -/
theorem holdsBytes_replaceRouted {mem : List Device} {addr : Nat} {bs : List Byte} {d : Device}
    (hr : route mem addr = .ok d) (hfit : d.offset addr + bs.length ≤ d.size) :
    HoldsBytes (replaceRouted addr (d.withBytes (d.offset addr) bs) mem) addr bs := by
  obtain ⟨hspace, hfind⟩ := route_ok_iff.mp hr
  have hgeom := geometry_withBytes d (d.offset addr) bs
  refine ⟨_, route_ok_iff.mpr ⟨hspace, find_replaceRouted_same hfind hgeom⟩, ?_, ?_⟩ <;> rw [offset_congr hgeom]
  · exact hfit
  · exact readCells_writeCells_same d.bytes (d.offset addr) bs

/-- Bytes installed inside the address space stand where they were put. -/
theorem holdsBytes_installBytes (mem : List Device) {addr : Nat} {bs : List Byte} (hpos : 0 < bs.length)
    (hend : addr + bs.length ≤ 0x100000000) : HoldsBytes (installBytes mem addr bs) addr bs := by
  have hnew := holdsBytes_codeStoreOf_cons mem hpos hend
  unfold installBytes
  cases hr : route mem addr with
  | error f => exact hnew
  | ok d =>
    by_cases hfit : d.offset addr + bs.length ≤ d.size
    · simp only [if_pos hfit]
      exact holdsBytes_replaceRouted hr hfit
    · simp only [if_neg hfit]
      exact hnew

/-- Installed bytes are read back as their little-endian integer, by the load that is as wide as they are many (R63). -/
theorem memRead_installBytes (mem : List Device) {addr : Nat} {bs : List Byte} {w : Width} (hlen : bs.length = w.bytes)
    (hend : addr + bs.length ≤ 0x100000000) :
    memRead (installBytes mem addr bs) addr w = .ok (BitVec.ofNat w.bits (leNat bs)) := by
  have hpos : 0 < bs.length := by rw [hlen]; cases w <;> decide
  obtain ⟨d, hr, hfit, hbytes⟩ := holdsBytes_installBytes mem hpos hend
  rw [memRead_of_route hr, devLoad_ok_iff, ← hlen, hbytes]
  exact ⟨hfit, rfl⟩

/-- Settles O25: the row's bytes stand at `pc` of the core made ready for it, whose architecture is the row's. -/
theorem placedTableWordRunsNext : Obligations.PlacedTableWordRunsNext := by
  intro s nbits w i hdecode hend
  obtain ⟨raw, hraw, hi⟩ := decodeTableWord_some hdecode
  have hload : memRead (s.withFetchWord nbits w).mem (regRead (s.withFetchWord nbits w).pc)
      (tableArch nbits w).instrWidth = .ok (BitVec.ofNat _ (leNat (tableBytes nbits w))) :=
    memRead_installBytes s.mem (tableBytes_length nbits w) (by rwa [tableBytes_length])
  have hfetch : fetch (s.withFetchWord nbits w) = .ok raw :=
    fetch_of_bytes (by rwa [withFetchWord_arch]) (by rwa [withFetchWord_arch])
  exact step_of_fetch (withFetchWord_status s nbits w) hfetch hi

end Sys2Proof.Machine
end
